-- ==== Sys2Proof/Word.lean ====
section
/-! DEFINITION. The machine Word (00_scope.md R5): a 64-bit signed integer in two's complement (92 D1), and its range. -/

namespace Sys2Proof

/-- One Word: the unit of memory, of registers and of ports (R5, R51). Its signed value is `BitVec.toInt`. -/
abbrev Word := BitVec 64

/-- `WORD_MIN` (R5). -/
abbrev wordMin : Int := -9223372036854775808

/-- `WORD_MAX` (R5). -/
abbrev wordMax : Int := 9223372036854775807

end Sys2Proof
end

