-- ==== Sys2Proof/Config.lean ====
section
/-! DEFINITION. The implementation parameters a model takes as arguments (00_scope.md R6). They are plain data: State holds
one Config, chosen per instance, and no step changes it. `N_OUT` is the length of State's list of outbound ports. -/

namespace Sys2Proof

/-- `OVERFLOW_POLICY` (R6, 92 D2): what Add, Multiply and AdjustRelativeBase do with a result outside a Word. -/
inductive OverflowPolicy where
  /-- Keep the low 64 bits. -/
  | wrap
  /-- Raise ArithmeticOverflow. -/
  | fault
  deriving DecidableEq, Repr

/-- The parameters of one instance (R6). -/
structure Config where
  /-- `OVERFLOW_POLICY`. -/
  overflowPolicy : OverflowPolicy
  /-- `ADDR_MAX = MEM_CAPACITY - 1`, for `1 <= MEM_CAPACITY <= 2^63`. -/
  addrMax : Fin 9223372036854775808
  /-- `IN_ATTACHED`: whether an inbound endpoint is attached (R33). -/
  inAttached : Bool
  deriving DecidableEq, Repr

/-- `MEM_CAPACITY` (R6): the number of addressable Words. -/
def Config.memCapacity (c : Config) : Nat := c.addrMax.val + 1

/-- The spec's own choices for this hardware: `Wrap` and `MEM_CAPACITY = 2^63` (R6, D2, D3). `IN_ATTACHED` is OPEN in
the spec; true is a DESIGN CHOICE (unsafe: log entry 4). -/
def Config.specChoice : Config :=
  { overflowPolicy := .wrap, addrMax := ⟨9223372036854775807, by decide⟩, inAttached := true }

end Sys2Proof
end

