-- ==== Sys2Proof/Machine/State.lean ====
section
/-! DEFINITION. The state of one core and its ports (10_state.md R20 to R44), the fault causes of the architecture
(60_exceptions.md R210), the model's own stops and refusals, and the state after reset (70_reset_and_hazards.md R260). -/

namespace Sys2Proof.Machine

/-- `run_state` (R27). -/
inductive RunState where
  | running | halted | faulted
  deriving DecidableEq, Repr

/-- The architecture's faults, codes 1 to 8 of R210. Taking one is a NEXT state (R221), not a stop of the model. -/
inductive Cause where
  /-- Code 1 (R211). -/
  | unknownOpcode
  /-- Code 2 (R212). -/
  | unknownAddressingMode
  /-- Code 3 (R213). -/
  | invalidDestinationMode
  /-- Code 4 (R214). -/
  | inputExhausted
  /-- Code 5 (R215). -/
  | outputClosed
  /-- Code 6 (R216). -/
  | negativeAddress
  /-- Code 7 (R217). -/
  | addressRange
  /-- Code 8, only under `OVERFLOW_POLICY = Fault` (R218). -/
  | arithmeticOverflow
  deriving DecidableEq, Repr

/-- The store: (address, Word) pairs, addresses strictly rising, no pair holding what an unlisted address reads as
(`Memory.wf` in Machine/Ops.lean). The spec's store is word addressed and has no bytes (20_memory.md R51; log entry 1). -/
abbrev Memory := List (Nat × Word)

/-- One outbound port: `out_queue[j]`, head first, and `out_closed[j]` (R34). -/
structure OutPort where
  queue : List Word
  closed : Bool
  deriving DecidableEq, Repr

/-- The state of one core, its ports and its parameters (R20, R33, R34, R37, R6). -/
structure State where
  /-- The parameters of R6; no step of the core changes them. -/
  config : Config
  /-- `mem` (R30). -/
  mem : Memory
  /-- `mem_len`, hidden (R31). -/
  memLen : Nat
  /-- `ip` (R23): an Address, so a natural number (92 D11). -/
  ip : Nat
  /-- `rb` (R26). -/
  rb : Word
  /-- `run_state` (R27). -/
  runState : RunState
  /-- `fault_cause` (R28); `none` is code 0. -/
  faultCause : Option Cause
  /-- `in_queue`, head first (R33). -/
  inQueue : List Word
  /-- `in_closed` (R33). -/
  inClosed : Bool
  /-- The outbound ports 0 to `N_OUT - 1` (R34). -/
  outPorts : List OutPort
  /-- Whether the environment has released the core since the last reset (R37, R260, R263; log entry 3). -/
  started : Bool
  /-- Whether the environment has closed the inbound port since the last reset: the memory of R33's "once true stays true until
  reset" while no endpoint is attached (log entry 24). -/
  inShut : Bool
  /-- The numbers of the outbound ports that the environment has closed since the last reset, without repeats: the memory of R34's
  "then stays true until reset" while the endpoints are fixed anew before start (log entry 24). -/
  outShut : List Nat
  deriving DecidableEq, Repr

/-- Why the core has no step: the model's own stops. Each is safe: the spec says that
the core takes no step there. -/
inductive Fault where
  /-- Raised by `step` before start (R260: "While reset is held and until start, the core takes no step"). Safe. -/
  | notStarted
  /-- Raised by `step` in Halted (R142: the core has no step). Safe. -/
  | alreadyHalted
  /-- Raised by `step` in Faulted (R142: the core has no step). Safe. -/
  | alreadyFaulted
  /-- Raised by Input on an empty open port (R141: the stall is the absence of a step, lifted only by the environment). Safe. -/
  | inputStall
  deriving DecidableEq, Repr

/-- What the model gives no meaning: moves that R270 does not allow the environment, and instructions not modelled.
All are safe: a run that needs one stops. -/
inductive Refusal where
  /-- An instruction without a meaning; raised by no arm of this model. Safe. -/
  | notModelled (mnemonic : String)
  /-- `envStep`: load after start (R261: "a model should refuse it"). Safe. -/
  | loadAfterStart
  /-- `envStep`: an image longer than `MEM_CAPACITY` (R40). Safe. -/
  | imageTooLong
  /-- `envStep`: changing the endpoints after start (R262). Safe. -/
  | endpointsAfterStart
  /-- `envStep`: changing the endpoints while a Word is on a port (R264 puts it before the seeding of `in_queue`; log entry 14).
  Safe. -/
  | endpointsInUse
  /-- `envStep`: an append to a closed, or unattached, inbound port (R33). Safe. -/
  | inboundClosed
  /-- `envStep`: an outbound port the core does not have (R34). Safe. -/
  | noSuchPort
  /-- `envStep`: removing the head of an empty outbound queue (R34). Safe. -/
  | outboundEmpty
  /-- `systemStep`: a core the system does not have (60_exceptions.md R229). Safe. -/
  | noSuchCore
  /-- `systemStep`: a connection the system does not have (R229). Safe. -/
  | noSuchWire
  deriving DecidableEq, Repr

/-- The state after reset of an instance with parameters `c` and `N_OUT = nOut` (R40 to R44, R260). -/
def State.resetWith (c : Config) (nOut : Nat) : State :=
  { config := c
    mem := []
    memLen := 0
    ip := 0
    rb := 0
    runState := .running
    faultCause := none
    inQueue := []
    inClosed := !c.inAttached
    outPorts := List.replicate nOut { queue := [], closed := false }
    started := false
    inShut := false
    outShut := [] }

/-- The machine right after reset: the spec's parameters, and for the two the spec leaves OPEN per instance an attached
inbound port and one outbound port (DESIGN CHOICE, unsafe: log entry 4). -/
def State.reset : State := State.resetWith Config.specChoice 1

end Sys2Proof.Machine
end

