-- ==== Sys2Proof/Machine/Ops.lean ====
section
/-! DEFINITION. The named operations over memory, registers, ports and the run state: MemRead and MemWrite (20_memory.md R52, R53),
the register writes, taking a fault (60_exceptions.md R221), halting (R205), the port accesses (R33, R34) and the gate of the
step (R142). There is no return from a fault (R224): only the environment's reset leaves Faulted or Halted. -/

namespace Sys2Proof.Machine

/-! ## The store -/

/-- What an address that was never loaded or written reads as (R52, R74). -/
def memoryDefault : Word := 0

/-- The Word at an address (R52). -/
def Memory.read (m : Memory) (a : Nat) : Word :=
  match m with
  | [] => memoryDefault
  | c :: rest => if c.1 = a then c.2 else Memory.read rest a

/-- Put a pair before the first pair of a higher address. -/
def Memory.insert (m : Memory) (a : Nat) (v : Word) : Memory :=
  match m with
  | [] => [(a, v)]
  | c :: rest => if a < c.1 then (a, v) :: c :: rest else c :: Memory.insert rest a v

/-- Remove what is listed for an address. -/
def Memory.erase (m : Memory) (a : Nat) : Memory :=
  match m with
  | [] => []
  | c :: rest => if c.1 = a then Memory.erase rest a else c :: Memory.erase rest a

/-- Set the Word at an address (R53), keeping the canonical form. -/
def Memory.write (m : Memory) (a : Nat) (v : Word) : Memory :=
  if v = memoryDefault then Memory.erase m a else Memory.insert (Memory.erase m a) a v

/-- The canonical form: addresses strictly rising, no entry equal to what an unlisted address reads as. -/
def Memory.wf (m : Memory) : Bool :=
  match m with
  | [] => true
  | c :: rest => decide (c.2 ≠ memoryDefault) && rest.all (fun d => decide (c.1 < d.1)) && Memory.wf rest

/-- The store that holds an image at addresses `a`, `a+1`, ... and 0 elsewhere (R40, R106). -/
def Memory.ofImageAt (a : Nat) (image : List Word) : Memory :=
  match image with
  | [] => []
  | p :: rest => if p = memoryDefault then Memory.ofImageAt (a + 1) rest else (a, p) :: Memory.ofImageAt (a + 1) rest

/-! ## State -/

/-- `N_OUT` (R34). -/
def State.nOut (s : State) : Nat := s.outPorts.length

/-- `ADDR_MAX` (R6). -/
def State.addrMax (s : State) : Nat := s.config.addrMax.val

/-- `MemWrite(a, 1, v)` (R53): one Word, and `mem_len` raised to `a + 1` where it was lower. -/
def State.store (s : State) (a : Nat) (v : Word) : State :=
  { s with mem := s.mem.write a v, memLen := if s.memLen ≤ a then a + 1 else s.memLen }

/-- `ip <- p`. -/
def State.setIp (s : State) (p : Nat) : State := { s with ip := p }

/-- Fall through by an instruction's length (R24). -/
def State.advance (s : State) (len : Nat) : State := s.setIp (s.ip + len)

/-- `rb <- v`; only AdjustRelativeBase does it (R26). -/
def State.setRb (s : State) (v : Word) : State := { s with rb := v }

/-- `run_state <- Halted` (R205). -/
def State.setHalted (s : State) : State := { s with runState := .halted }

/-- The inbound queue after a removal or an append (R33). -/
def State.setInQueue (s : State) (q : List Word) : State := { s with inQueue := q }

/-- The outbound ports after an append, a removal or a close (R34). -/
def State.setOutPorts (s : State) (ps : List OutPort) : State := { s with outPorts := ps }

/-- Taking a fault: `raise Fault(c)` (R12, R221). Nothing is saved and control goes nowhere. -/
def State.takeFault (s : State) (c : Cause) : State := { s with runState := .faulted, faultCause := some c }

/-- What a step comes to when its effect is a next state or a fault to take (R132: the first fault raised ends the step,
and nothing else is written). -/
def settle (s : State) (r : Except Cause State) : Host.Outcome State Fault Refusal :=
  match r with
  | .ok t => .next t
  | .error c => .next (s.takeFault c)

/-- Output's loop (R172): append `v` to the ports in ascending order up to the first closed one; the flag says whether
every port took it (R173). -/
def broadcast (v : Word) (ps : List OutPort) : List OutPort × Bool :=
  match ps with
  | [] => ([], true)
  | p :: rest =>
    if p.closed then (p :: rest, false)
    else ({ p with queue := p.queue ++ [v] } :: (broadcast v rest).1, (broadcast v rest).2)

/-- Why the core has no step in this state, if so: not yet started (R260), or a terminal state (R142). -/
def stepGate (s : State) : Option Fault :=
  if s.started = false then some .notStarted
  else
    match s.runState with
    | .running => none
    | .halted => some .alreadyHalted
    | .faulted => some .alreadyFaulted

/-! ## What the environment reads (R37) -/

/-- The code of a fault (R210). -/
def Cause.code (c : Cause) : Nat :=
  match c with
  | .unknownOpcode => 1
  | .unknownAddressingMode => 2
  | .invalidDestinationMode => 3
  | .inputExhausted => 4
  | .outputClosed => 5
  | .negativeAddress => 6
  | .addressRange => 7
  | .arithmeticOverflow => 8

/-- `fault_cause` as its code; 0 is None (R28, R210). -/
def State.faultCode (s : State) : Nat :=
  match s.faultCause with
  | none => 0
  | some c => c.code

/-- What a run came to: the value at address 0, or the fault (R37, R271). -/
inductive RunResult where
  | value (w : Word)
  | fault (code : Nat)
  deriving DecidableEq, Repr

/-- The result of a run: `mem[0]` when Halted, the fault cause when Faulted, nothing while Running (R37). -/
def State.result (s : State) : Option RunResult :=
  match s.runState with
  | .running => none
  | .halted => some (.value (s.mem.read 0))
  | .faulted => some (.fault s.faultCode)

end Sys2Proof.Machine
end

