-- ==== Sys2Proof/Machine/Flags.lean ====
section
/-! DEFINITION. The integer unit (41_add_multiply.md R164). The core has no flags and no condition codes (10_state.md R29), so no
flag is computed here: an overflow is wrapped without a trace, or is a fault to take. -/

namespace Sys2Proof.Machine

/-- `fits(x)` (R9): the exact result is a Word. -/
def fits (x : Int) : Bool := decide (wordMin ≤ x ∧ x ≤ wordMax)

/-- `wrap64(x)` (R9): the unique Word congruent to `x` modulo `2^64`. -/
def wrap64 (x : Int) : Word := BitVec.ofInt 64 x

/-- The stored result of an exact sum or product under an overflow policy (R160, R162, R164, R200). -/
def narrow (p : OverflowPolicy) (x : Int) : Except Cause Word :=
  if fits x then .ok (wrap64 x)
  else
    match p with
    | .wrap => .ok (wrap64 x)
    | .fault => .error .arithmeticOverflow

/-- The exact sum of two Words (R160, R200). -/
def exactSum (a b : Word) : Int := a.toInt + b.toInt

/-- The exact signed product of two Words (R162). -/
def exactProduct (a b : Word) : Int := a.toInt * b.toInt

/-- The Word 1 or 0 (R191, R193). -/
def truthWord (b : Bool) : Word := if b then 1 else 0

/-- Signed comparison, first operand less than second (R190, R191; the operand order is G3 of 93, log entry 8). -/
def lessThanWord (a b : Word) : Word := truthWord (decide (a.toInt < b.toInt))

/-- Equality of two whole Words (R192, R193). -/
def equalsWord (a b : Word) : Word := truthWord (decide (a = b))

end Sys2Proof.Machine
end

