-- ==== Sys2Proof/Syntax.lean ====
section
/-! DEFINITION. The instruction set as syntax: addressing modes (30_encoding.md R94), operands (R102), the ten operations (R98)
and the one inductive `Instr` with a constructor per row of spec/opcode_table.json. -/

namespace Sys2Proof

/-- The three addressing modes (R1, R94). -/
inductive Mode where
  /-- Digit 0: dereference through an address. -/
  | position
  /-- Digit 1: literal value. -/
  | immediate
  /-- Digit 2: dereference through the relative base plus an offset. -/
  | relative
  deriving DecidableEq, Repr

/-- One operand: its mode and its operand word, the raw value `mem[ip+k]` (R14, R102). -/
structure Operand where
  mode : Mode
  raw : Word
  deriving DecidableEq, Repr

/-- The ten operations (R98). -/
inductive Opcode where
  | add | multiply | input | output | jumpIfTrue | jumpIfFalse | lessThan | equals | adjustRelativeBase | halt
  deriving DecidableEq, Repr

/-- One decoded instruction. Operands named `dst` are write targets, all others are read operands (R97). -/
inductive Instr where
  /-- ADD, opcode 01 (R160). -/
  | add (a b dst : Operand)
  /-- MUL, opcode 02 (R162). -/
  | multiply (a b dst : Operand)
  /-- IN, opcode 03 (R170). -/
  | input (dst : Operand)
  /-- OUT, opcode 04 (R172). -/
  | output (a : Operand)
  /-- JNZ, opcode 05 (R180). -/
  | jumpIfTrue (cond target : Operand)
  /-- JZ, opcode 06 (R182). -/
  | jumpIfFalse (cond target : Operand)
  /-- LT, opcode 07 (R190). -/
  | lessThan (a b dst : Operand)
  /-- EQ, opcode 08 (R192). -/
  | equals (a b dst : Operand)
  /-- ARB, opcode 09 (R200). -/
  | adjustRelativeBase (a : Operand)
  /-- HALT, opcode 99 (R205). -/
  | halt
  deriving DecidableEq, Repr

end Sys2Proof
end

