-- ==== Sys2Proof/WellFormed.lean ====
section
/-! DEFINITION. Which instruction terms an encoding can stand for: the write target is never Immediate (30_encoding.md R98, R101).
Read operands may have any mode and operand words may be any Word (R102), so there is no other check. -/

namespace Sys2Proof

/-- A write target in a legal mode: Position or Relative (R101). -/
def Operand.isTarget (o : Operand) : Bool :=
  match o.mode with
  | .position => true
  | .immediate => false
  | .relative => true

/-- The instruction has a legal (opcode, modes) form of R98. -/
def Instr.wellFormed (i : Instr) : Bool :=
  match i with
  | .add _ _ dst => dst.isTarget
  | .multiply _ _ dst => dst.isTarget
  | .input dst => dst.isTarget
  | .output _ => true
  | .jumpIfTrue _ _ => true
  | .jumpIfFalse _ _ => true
  | .lessThan _ _ dst => dst.isTarget
  | .equals _ _ dst => dst.isTarget
  | .adjustRelativeBase _ => true
  | .halt => true

end Sys2Proof
end

