-- ==== Sys2Proof/Decode.lean ====
section
/-! DEFINITION. The decimal decoder (30_encoding.md R90 to R105, R109), then the encoder (R111), written from the same opcode map
(R98). The decoder is total on any list of Words: what lies beyond the list reads as 0, as memory does (20_memory.md R52, R133).
It rejects by the name of the fault the spec gives. -/

namespace Sys2Proof

/-! ## The opcode map (R98) -/

/-- The opcode number of an operation (R98). -/
def Opcode.number (op : Opcode) : Nat :=
  match op with
  | .add => 1
  | .multiply => 2
  | .input => 3
  | .output => 4
  | .jumpIfTrue => 5
  | .jumpIfFalse => 6
  | .lessThan => 7
  | .equals => 8
  | .adjustRelativeBase => 9
  | .halt => 99

/-- The arity of an operation (R98): how many operand words follow. -/
def Opcode.arity (op : Opcode) : Nat :=
  match op with
  | .add => 3
  | .multiply => 3
  | .input => 1
  | .output => 1
  | .jumpIfTrue => 2
  | .jumpIfFalse => 2
  | .lessThan => 3
  | .equals => 3
  | .adjustRelativeBase => 1
  | .halt => 0

/-- `WT` of R109: which operand is the write target, if any. It is always the last operand (R97). -/
def Opcode.writeTarget (op : Opcode) : Option Nat :=
  match op with
  | .add => some 3
  | .multiply => some 3
  | .input => some 1
  | .output => none
  | .jumpIfTrue => none
  | .jumpIfFalse => none
  | .lessThan => some 3
  | .equals => some 3
  | .adjustRelativeBase => none
  | .halt => none

/-- The operation with a given opcode number; `none` for 0 and 10 to 98 (R99). -/
def opcodeOfNumber (n : Nat) : Option Opcode :=
  match n with
  | 1 => some .add
  | 2 => some .multiply
  | 3 => some .input
  | 4 => some .output
  | 5 => some .jumpIfTrue
  | 6 => some .jumpIfFalse
  | 7 => some .lessThan
  | 8 => some .equals
  | 9 => some .adjustRelativeBase
  | 99 => some .halt
  | _ => none

/-- `digit(v, k)` of R10: the decimal digit of weight `10^k`. -/
def decimalDigit (v k : Nat) : Nat := v / 10 ^ k % 10

/-- The mode a digit stands for; 3 to 9 stand for none (R94). Digit 2 for Relative is G1 of 93 (log entry 7). -/
def modeOfDigit (d : Nat) : Option Mode :=
  match d with
  | 0 => some .position
  | 1 => some .immediate
  | 2 => some .relative
  | _ => none

/-- The digit of a mode (R94). -/
def Mode.digit (m : Mode) : Nat :=
  match m with
  | .position => 0
  | .immediate => 1
  | .relative => 2

/-! ## Decoding the instruction word (R109) -/

/-- The three DecodeErrors of R226. -/
inductive DecodeError where
  /-- R95, R99. -/
  | unknownOpcode
  /-- R100. -/
  | unknownAddressingMode
  /-- R101. -/
  | invalidDestinationMode
  deriving DecidableEq, Repr

/-- A decoded instruction word: the operation and the modes of its operands. A mode the operation does not use is
Position here and is read by nothing. -/
structure Head where
  op : Opcode
  m1 : Mode
  m2 : Mode
  m3 : Mode
  deriving DecidableEq, Repr

/-- The mode of operand `k` in an instruction word of value `v`: one pass of R109's loop. A digit beyond the arity is not
examined (R92, R96). -/
def decodeMode (op : Opcode) (v k : Nat) : Except DecodeError Mode :=
  if op.arity < k then .ok .position
  else
    match modeOfDigit (decimalDigit v (k + 1)) with
    | none => .error .unknownAddressingMode
    | some m =>
      if op.writeTarget = some k ∧ m = .immediate then .error .invalidDestinationMode else .ok m

/-- Phases 2 and 3 of a step (R132) on the instruction word: `decode()` of R109. -/
def decodeHead (w : Word) : Except DecodeError Head :=
  if w.toInt < 0 then .error .unknownOpcode
  else
    match opcodeOfNumber (w.toNat % 100) with
    | none => .error .unknownOpcode
    | some op => do
      let m1 ← decodeMode op w.toNat 1
      let m2 ← decodeMode op w.toNat 2
      let m3 ← decodeMode op w.toNat 3
      .ok { op := op, m1 := m1, m2 := m2, m3 := m3 }

/-- The instruction of a decoded instruction word and its operand words; words beyond the arity are not looked at. -/
def Head.assemble (h : Head) (r1 r2 r3 : Word) : Instr :=
  match h.op with
  | .add => .add ⟨h.m1, r1⟩ ⟨h.m2, r2⟩ ⟨h.m3, r3⟩
  | .multiply => .multiply ⟨h.m1, r1⟩ ⟨h.m2, r2⟩ ⟨h.m3, r3⟩
  | .input => .input ⟨h.m1, r1⟩
  | .output => .output ⟨h.m1, r1⟩
  | .jumpIfTrue => .jumpIfTrue ⟨h.m1, r1⟩ ⟨h.m2, r2⟩
  | .jumpIfFalse => .jumpIfFalse ⟨h.m1, r1⟩ ⟨h.m2, r2⟩
  | .lessThan => .lessThan ⟨h.m1, r1⟩ ⟨h.m2, r2⟩ ⟨h.m3, r3⟩
  | .equals => .equals ⟨h.m1, r1⟩ ⟨h.m2, r2⟩ ⟨h.m3, r3⟩
  | .adjustRelativeBase => .adjustRelativeBase ⟨h.m1, r1⟩
  | .halt => .halt

/-- The instruction that starts at the head of a list of Words, and the Words after it (R90). -/
def decode (ws : List Word) : Except DecodeError (Instr × List Word) := do
  let h ← decodeHead (ws.getD 0 0)
  .ok (h.assemble (ws.getD 1 0) (ws.getD 2 0) (ws.getD 3 0), ws.drop (1 + h.op.arity))

/-! ## Encoding (R111) -/

/-- The operation of an instruction. -/
def Instr.opcode (i : Instr) : Opcode :=
  match i with
  | .add _ _ _ => .add
  | .multiply _ _ _ => .multiply
  | .input _ => .input
  | .output _ => .output
  | .jumpIfTrue _ _ => .jumpIfTrue
  | .jumpIfFalse _ _ => .jumpIfFalse
  | .lessThan _ _ _ => .lessThan
  | .equals _ _ _ => .equals
  | .adjustRelativeBase _ => .adjustRelativeBase
  | .halt => .halt

/-- The operands in program order (R97). -/
def Instr.operands (i : Instr) : List Operand :=
  match i with
  | .add a b dst => [a, b, dst]
  | .multiply a b dst => [a, b, dst]
  | .input dst => [dst]
  | .output a => [a]
  | .jumpIfTrue cond target => [cond, target]
  | .jumpIfFalse cond target => [cond, target]
  | .lessThan a b dst => [a, b, dst]
  | .equals a b dst => [a, b, dst]
  | .adjustRelativeBase a => [a]
  | .halt => []

/-- The length in Words (R90): one more than the arity. -/
def Instr.length (i : Instr) : Nat := 1 + i.operands.length

/-- The sum of `m_k * 10^(k+1)` over a list of operands that starts at operand `k` (R111). -/
def modeDigits (k : Nat) (os : List Operand) : Nat :=
  match os with
  | [] => 0
  | o :: rest => o.mode.digit * 10 ^ (k + 1) + modeDigits (k + 1) rest

/-- The canonical instruction word (R91, R111): `op` plus the sum of `m_k * 10^(k+1)`. R107 states the same formula, but prints
2101 for its example `ADD [9], #3, [rb+1]`, to which the formula gives 21001; the formula is followed (DEDUCED, safe: log entry 22). -/
def encodeHead (i : Instr) : Word := BitVec.ofNat 64 (i.opcode.number + modeDigits 1 i.operands)

/-- The canonical encoding (R111): the instruction word, then the raw values in order. -/
def encode (i : Instr) : List Word := encodeHead i :: i.operands.map (·.raw)

/-! ## The opcode table's numbering of bits -/

/-- The Words of an instruction whose bits are `w`, of which the lowest `nbits` count: Word `n` holds bits `64n` to `64n+63`. -/
def tableWords (nbits w : Nat) : List Word :=
  let v := w % 2 ^ nbits
  [BitVec.ofNat 64 v, BitVec.ofNat 64 (v / 2 ^ 64), BitVec.ofNat 64 (v / 2 ^ 128), BitVec.ofNat 64 (v / 2 ^ 192)]

/-- What the decoder reads from an instruction whose bits are `w`, bit 0 the least significant bit of the first Word. -/
def decodeTableWord (nbits w : Nat) : Option Instr :=
  match decode (tableWords nbits w) with
  | .ok (i, _) => some i
  | .error _ => none

end Sys2Proof
end

