-- ==== Sys2Proof/Machine/Operands.lean ====
section
/-! DEFINITION. The common phases of an instruction whose words are fetched: the target-mode check of phase 3, the length check
(40_step_and_operands.md R138), eager address generation (R134; 20_memory.md R56 to R59) and value resolution (R135), per format
of 30_encoding.md R97. -/

namespace Sys2Proof.Machine

/-- `check(x)` (R56), on an exact integer (R59). -/
def checkAddress (s : State) (x : Int) : Except Cause Nat :=
  if x < 0 then .error .negativeAddress
  else if (s.addrMax : Int) < x then .error .addressRange
  else .ok x.toNat

/-- Phase 3 for a write target: Immediate is no destination (R101). The decoder has rejected it already, so this fires only
on an ill-formed term. -/
def checkTargetMode (o : Operand) : Except Cause Unit :=
  if o.isTarget then .ok () else .error .invalidDestinationMode

/-- Phase 4, for an instruction of `len = n + 1` Words (R138). -/
def lengthCheck (s : State) (len : Nat) : Except Cause Unit :=
  if wordMax < (s.ip : Int) + len then .error .addressRange else .ok ()

/-- The exact integer a Position or Relative operand designates, before its check (R57, R59); none for Immediate (R137). -/
def designated (s : State) (o : Operand) : Option Int :=
  match o.mode with
  | .position => some o.raw.toInt
  | .immediate => none
  | .relative => some (s.rb.toInt + o.raw.toInt)

/-- Phase 6 for one operand: its checked effective address, none for Immediate (R134). -/
def effectiveAddress (s : State) (o : Operand) : Except Cause (Option Nat) :=
  match designated s o with
  | none => .ok none
  | some x =>
    match checkAddress s x with
    | .ok a => .ok (some a)
    | .error c => .error c

/-- The resolved value of a read operand from its effective address (R135). -/
def operandValue (s : State) (o : Operand) (ea : Option Nat) : Word :=
  match ea with
  | none => o.raw
  | some a => s.mem.read a

/-- Phase 6 for a write target: `dst` (R58, R136). The Word there is not read. -/
def targetAddress (s : State) (o : Operand) : Except Cause Nat :=
  match designated s o with
  | none => .error .invalidDestinationMode
  | some x => checkAddress s x

/-- Format F1R: one read operand. -/
def resolveR (s : State) (a : Operand) : Except Cause Word := do
  lengthCheck s 2
  let ea ← effectiveAddress s a
  .ok (operandValue s a ea)

/-- Format F1W: one write target. -/
def resolveW (s : State) (dst : Operand) : Except Cause Nat := do
  checkTargetMode dst
  lengthCheck s 2
  targetAddress s dst

/-- Format F2: two read operands; both addresses are checked before either value is read (R134). -/
def resolveRR (s : State) (a b : Operand) : Except Cause (Word × Word) := do
  lengthCheck s 3
  let ea1 ← effectiveAddress s a
  let ea2 ← effectiveAddress s b
  .ok (operandValue s a ea1, operandValue s b ea2)

/-- Format F3: two read operands and a write target; all three addresses are checked before any value is read. -/
def resolveRRW (s : State) (a b dst : Operand) : Except Cause (Word × Word × Nat) := do
  checkTargetMode dst
  lengthCheck s 4
  let ea1 ← effectiveAddress s a
  let ea2 ← effectiveAddress s b
  let d ← targetAddress s dst
  .ok (operandValue s a ea1, operandValue s b ea2, d)

end Sys2Proof.Machine
end

