-- ==== Sys2Proof/Machine/Arithmetic.lean ====
section
/-! DEFINITION. Add and Multiply (41_add_multiply.md). -/

namespace Sys2Proof.Machine

/-- ADD (R160): the sum under the overflow policy, stored at the target; `ip + 4`. -/
def execAdd (a b dst : Operand) (s : State) : Host.Outcome State Fault Refusal :=
  settle s do
    let (x, y, d) ← resolveRRW s a b dst
    let r ← narrow s.config.overflowPolicy (exactSum x y)
    .ok ((s.store d r).advance 4)

/-- MUL (R162): the signed product under the overflow policy, stored at the target; `ip + 4`. -/
def execMultiply (a b dst : Operand) (s : State) : Host.Outcome State Fault Refusal :=
  settle s do
    let (x, y, d) ← resolveRRW s a b dst
    let r ← narrow s.config.overflowPolicy (exactProduct x y)
    .ok ((s.store d r).advance 4)

end Sys2Proof.Machine
end

