-- ==== Sys2Proof/Machine/Compare.lean ====
section
/-! DEFINITION. LessThan and Equals (44_compare.md). -/

namespace Sys2Proof.Machine

/-- LT (R190): 1 or 0 stored at the target; `ip + 4`. -/
def execLessThan (a b dst : Operand) (s : State) : Host.Outcome State Fault Refusal :=
  settle s do
    let (x, y, d) ← resolveRRW s a b dst
    .ok ((s.store d (lessThanWord x y)).advance 4)

/-- EQ (R192): 1 or 0 stored at the target; `ip + 4`. -/
def execEquals (a b dst : Operand) (s : State) : Host.Outcome State Fault Refusal :=
  settle s do
    let (x, y, d) ← resolveRRW s a b dst
    .ok ((s.store d (equalsWord x y)).advance 4)

end Sys2Proof.Machine
end

