-- ==== Sys2Proof/Machine/Halt.lean ====
section
/-! DEFINITION. Halt (46_halt.md). -/

namespace Sys2Proof.Machine

/-- HALT (R205): `run_state <- Halted`, everything else unchanged; exempt from the length check (R138). -/
def execHalt (s : State) : Host.Outcome State Fault Refusal :=
  .next s.setHalted

end Sys2Proof.Machine
end

