-- ==== Sys2Proof/Machine/InputOutput.lean ====
section
/-! DEFINITION. Input and Output (42_input_output.md), the core's transactions on its ports. -/

namespace Sys2Proof.Machine

/-- IN (R170): the target address is checked first (R171), then the head of the inbound queue is taken and stored; an empty
closed port is InputExhausted, an empty open port has no step (R141). -/
def execInput (dst : Operand) (s : State) : Host.Outcome State Fault Refusal :=
  match resolveW s dst with
  | .error c => .next (s.takeFault c)
  | .ok d =>
    match s.inQueue with
    | v :: rest => .next (((s.setInQueue rest).store d v).advance 2)
    | [] => if s.inClosed then .next (s.takeFault .inputExhausted) else .fault .inputStall

/-- OUT (R172): the value goes to every outbound port in ascending order; at a closed port OutputClosed is taken, and the
ports before it keep the value (R173). -/
def execOutput (a : Operand) (s : State) : Host.Outcome State Fault Refusal :=
  match resolveR s a with
  | .error c => .next (s.takeFault c)
  | .ok v =>
    if (broadcast v s.outPorts).2 then .next ((s.setOutPorts (broadcast v s.outPorts).1).advance 2)
    else .next ((s.setOutPorts (broadcast v s.outPorts).1).takeFault .outputClosed)

end Sys2Proof.Machine
end

