-- ==== Sys2Proof/Machine/Jumps.lean ====
section
/-! DEFINITION. JumpIfTrue and JumpIfFalse (43_jumps.md). -/

namespace Sys2Proof.Machine

/-- A taken jump: `ip <- t`; a negative target faults in the jump's own step (R183). A target above `ADDR_MAX` is written, and
the next fetch faults (R181). -/
def jumpTo (s : State) (t : Word) : Except Cause State :=
  if t.toInt < 0 then .error .negativeAddress else .ok (s.setIp t.toNat)

/-- JNZ (R180): jump if the first value is not zero, else `ip + 3`. -/
def execJumpIfTrue (cond target : Operand) (s : State) : Host.Outcome State Fault Refusal :=
  settle s do
    let (c, t) ← resolveRR s cond target
    if c ≠ 0 then jumpTo s t else .ok (s.advance 3)

/-- JZ (R182): jump if the first value is zero, else `ip + 3`. -/
def execJumpIfFalse (cond target : Operand) (s : State) : Host.Outcome State Fault Refusal :=
  settle s do
    let (c, t) ← resolveRR s cond target
    if c = 0 then jumpTo s t else .ok (s.advance 3)

end Sys2Proof.Machine
end

