-- ==== Sys2Proof/Machine/RelativeBase.lean ====
section
/-! DEFINITION. AdjustRelativeBase (45_adjust_relative_base.md). -/

namespace Sys2Proof.Machine

/-- ARB (R200): `rb` plus the value under the overflow policy; `ip + 2`. The operand is resolved with the old `rb` (R201). -/
def execAdjustRelativeBase (a : Operand) (s : State) : Host.Outcome State Fault Refusal :=
  settle s do
    let v ← resolveR s a
    let r ← narrow s.config.overflowPolicy (exactSum s.rb v)
    .ok ((s.setRb r).advance 2)

end Sys2Proof.Machine
end

