-- ==== Sys2Proof/Machine/Fetch.lean ====
section
/-! DEFINITION. Fetching an instruction: phases 1, 2, 3 and 5 of a step (40_step_and_operands.md R132). Phase 4, the length check,
stands in each meaning; it raises the same cause as phase 5, so which of the two comes first cannot be observed (log entry 6). -/

namespace Sys2Proof.Machine

/-- The fault a decode error raises (R226). -/
def Cause.ofDecodeError (e : DecodeError) : Cause :=
  match e with
  | .unknownOpcode => .unknownOpcode
  | .unknownAddressingMode => .unknownAddressingMode
  | .invalidDestinationMode => .invalidDestinationMode

/-- Phase 5 for operand word `k` of an instruction of arity `n` (R133); a word beyond the arity is not fetched. -/
def fetchOperand (s : State) (n k : Nat) : Except Cause Word :=
  if n < k then .ok 0
  else
    match checkAddress s ((s.ip : Int) + k) with
    | .ok a => .ok (s.mem.read a)
    | .error c => .error c

/-- Phases 1 to 3: the decoded instruction word at `ip` (R109). -/
def fetchHead (s : State) : Except Cause Head :=
  match checkAddress s (s.ip : Int) with
  | .error c => .error c
  | .ok a =>
    match decodeHead (s.mem.read a) with
    | .error e => .error (Cause.ofDecodeError e)
    | .ok h => .ok h

/-- The instruction at `ip`, or the fault its fetch or decode raises. -/
def fetchInstr (s : State) : Except Cause Instr := do
  let h ← fetchHead s
  let r1 ← fetchOperand s h.op.arity 1
  let r2 ← fetchOperand s h.op.arity 2
  let r3 ← fetchOperand s h.op.arity 3
  .ok (h.assemble r1 r2 r3)

/-- Store Words at `a`, `a+1`, ... -/
def storeWords (s : State) (a : Nat) (ws : List Word) : State :=
  match ws with
  | [] => s
  | w :: rest => storeWords (s.store a w) (a + 1) rest

/-- The core released and Running, with no fault recorded, so that it has a step (R272). -/
def release (s : State) : State := { s with runState := .running, faultCause := none, started := true }

end Sys2Proof.Machine
end

