-- ==== Sys2Proof/Machine/Step.lean ====
section
/-! DEFINITION. The step (40_step_and_operands.md R144) and the placing of one instruction where the step fetches. -/

namespace Sys2Proof.Machine

/-- One step of the core: no step where the gate is shut (R142, R260), else fetch, decode and execute (R132). -/
def step (s : State) : Host.Outcome State Fault Refusal :=
  match stepGate s with
  | some f => .fault f
  | none =>
    match fetchInstr s with
    | .error c => .next (s.takeFault c)
    | .ok i => exec i s

/-- The state with the instruction whose bits are `w` (the bits above `nbits` zero) stored at `ip`, and the core released:
this stands for the environment's load and start (R261, R263; log entry 5). -/
def State.withFetchWord (s : State) (nbits w : Nat) : State :=
  release (storeWords s s.ip (tableWords nbits w))

end Sys2Proof.Machine
end

