-- ==== Sys2Proof/Machine/Environment.lean ====
section
/-! DEFINITION. The environment's moves (70_reset_and_hazards.md R260 to R263, R270; 10_state.md R33, R34, R37) and schedules that
interleave them with the core's steps (40_step_and_operands.md R130, R131; 60_exceptions.md R220). A move the table of R270 does
not allow is refused by name (93 U12). -/

namespace Sys2Proof.Machine

/-- What the environment may do (R130, R270). Reading the state is no move: it changes nothing. -/
inductive EnvMove where
  /-- Assert reset (R260). -/
  | reset
  /-- Install the image, before start (R261). -/
  | load (image : List Word)
  /-- Fix `N_OUT` and `IN_ATTACHED`, before start (R262). -/
  | fixEndpoints (nOut : Nat) (inAttached : Bool)
  /-- Release the core (R263). -/
  | start
  /-- Append a Word to `in_queue` (R33). -/
  | appendIn (v : Word)
  /-- Set `in_closed` (R33). -/
  | closeIn
  /-- Remove the head of `out_queue[j]` (R34). -/
  | takeOut (j : Nat)
  /-- Set `out_closed[j]` (R34). -/
  | closeOut (j : Nat)
  deriving DecidableEq, Repr

/-- Reset puts every state element at its reset value (R260); the instance's parameters stay. -/
def State.envReset (s : State) : State := State.resetWith s.config s.nOut

/-- The image at 0 to `L - 1`, zero elsewhere, `mem_len = L` (R40, R261). -/
def State.load (s : State) (image : List Word) : State :=
  { s with mem := Memory.ofImageAt 0 image, memLen := image.length }

/-- No Word is on any port: R264 fixes the endpoints before `in_queue` is seeded. A close does not count (R270: any time). -/
def State.portsEmpty (s : State) : Bool := decide (s.inQueue = []) && s.outPorts.all fun p => decide (p.queue = [])

/-- The outbound ports 0 to `n - 1` with nothing on them, of which those numbered in `shut` are closed (R34, R44). -/
def emptyPorts (n : Nat) (shut : List Nat) : List OutPort := (List.range n).map fun j => { queue := [], closed := shut.contains j }

/-- The ports of the chosen parameters (R44, R262); what the environment has closed since reset stays closed (R33, R34). -/
def State.fixEndpoints (s : State) (nOut : Nat) (inAttached : Bool) : State :=
  { s with
    config := { s.config with inAttached := inAttached }
    inQueue := []
    inClosed := s.inShut || !inAttached
    outPorts := emptyPorts nOut s.outShut }

/-- Start (R263); without effect on a core already started. -/
def State.start (s : State) : State := { s with started := true }

/-- Close the inbound port (R33), attached or not. -/
def State.closeIn (s : State) : State := { s with inClosed := true, inShut := true }

/-- Close outbound port `j`, which is `p` (R34). -/
def State.closeOut (s : State) (j : Nat) (p : OutPort) : State :=
  { s with outPorts := s.outPorts.set j { p with closed := true }, outShut := s.outShut.insert j }

/-- One move of the environment. Both closes are allowed at any time, before start too, as the table of R270 says, although R272
lists every `out_closed[j]` as false at start (DEDUCED, safe: log entry 23). -/
def envStep (m : EnvMove) (s : State) : Host.Outcome State Fault Refusal :=
  match m with
  | .reset => .next s.envReset
  | .load image =>
    if s.started then .refused .loadAfterStart
    else if s.config.memCapacity < image.length then .refused .imageTooLong
    else .next (s.load image)
  | .fixEndpoints nOut inAttached =>
    if s.started then .refused .endpointsAfterStart
    else if s.portsEmpty then .next (s.fixEndpoints nOut inAttached)
    else .refused .endpointsInUse
  | .start => .next s.start
  | .appendIn v =>
    if s.inClosed then .refused .inboundClosed else .next (s.setInQueue (s.inQueue ++ [v]))
  | .closeIn => .next s.closeIn
  | .takeOut j =>
    match s.outPorts[j]? with
    | none => .refused .noSuchPort
    | some p =>
      match p.queue with
      | [] => .refused .outboundEmpty
      | _ :: rest => .next (s.setOutPorts (s.outPorts.set j { p with queue := rest }))
  | .closeOut j =>
    match s.outPorts[j]? with
    | none => .refused .noSuchPort
    | some p => .next (s.closeOut j p)

/-- One event of a schedule: a step of the core or a move of the environment. -/
inductive Move where
  | core
  | env (m : EnvMove)
  deriving DecidableEq, Repr

/-- One event. -/
def move (m : Move) (s : State) : Host.Outcome State Fault Refusal :=
  match m with
  | .core => step s
  | .env e => envStep e s

/-- A schedule, stopping at the first event that has no next state. -/
def runMoves (ms : List Move) (s : State) : Host.Outcome State Fault Refusal :=
  match ms with
  | [] => .next s
  | m :: rest =>
    match move m s with
    | .next t => runMoves rest t
    | .fault f => .fault f
    | .refused r => .refused r

end Sys2Proof.Machine
end

