-- ==== Sys2Proof/Machine/System.lean ====
section
/-! DEFINITION. Several cores (60_exceptions.md R228 to R230; 20_memory.md R68): each has its own whole state; a connection carries
Words from one core's outbound port to another's inbound port in FIFO order. Which core steps next is the schedule's choice
(R230). How a system is wired and shut down is out of scope (R231). -/

namespace Sys2Proof.Machine

/-- One connection: outbound port `fromPort` of core `fromCore` to the inbound port of core `toCore` (R229). -/
structure Wire where
  fromCore : Nat
  fromPort : Nat
  toCore : Nat
  deriving DecidableEq, Repr

/-- The cores and their connections. -/
structure System where
  cores : List State
  wires : List Wire
  deriving DecidableEq, Repr

/-- One event of a system. -/
inductive SystemMove where
  /-- A step of one core. -/
  | core (i : Nat)
  /-- A move of the environment at one core. -/
  | env (i : Nat) (m : EnvMove)
  /-- One Word along connection `k`: the head of the outbound queue to the tail of the inbound queue. -/
  | forward (k : Nat)
  deriving DecidableEq, Repr

/-- Apply an event to one core of a system. -/
def System.at (y : System) (i : Nat) (f : State → Host.Outcome State Fault Refusal) : Host.Outcome System Fault Refusal :=
  match y.cores[i]? with
  | none => .refused .noSuchCore
  | some s =>
    match f s with
    | .next t => .next { y with cores := y.cores.set i t }
    | .fault e => .fault e
    | .refused r => .refused r

/-- The head of an outbound queue of a core, if there is one. -/
def System.outHead (y : System) (i j : Nat) : Option Word :=
  match y.cores[i]? with
  | none => none
  | some s =>
    match s.outPorts[j]? with
    | none => none
    | some p => p.queue.head?

/-- One event of a system. A Word is forwarded by taking it from the outbound queue and appending it to the inbound one
(R229); a connection whose outbound queue is empty forwards nothing. -/
def systemStep (m : SystemMove) (y : System) : Host.Outcome System Fault Refusal :=
  match m with
  | .core i => y.at i step
  | .env i e => y.at i (envStep e)
  | .forward k =>
    match y.wires[k]? with
    | none => .refused .noSuchWire
    | some w =>
      match y.outHead w.fromCore w.fromPort with
      | none => .refused .outboundEmpty
      | some v =>
        match y.at w.fromCore (envStep (.takeOut w.fromPort)) with
        | .next z => z.at w.toCore (envStep (.appendIn v))
        | .fault e => .fault e
        | .refused r => .refused r

end Sys2Proof.Machine
end

