-- ==== Sys2Proof/Safety.lean ====
section
/-! DEFINITION. The terms in which claims about the machine are stated: what an operand resolves to, what an instruction stores,
the invariant of a core, the end of a run (70_reset_and_hazards.md R273), and the spec's own pseudocode of a step
(40_step_and_operands.md R144) as a second, table-driven definition to hold the machine against. -/

namespace Sys2Proof.Machine

/-! ## Operands as the addressing table gives them (20_memory.md R57, R58) -/

/-- The exact integer `x` is a legal Address of this core (R56). -/
def LegalAddress (s : State) (x : Int) : Prop := 0 ≤ x ∧ x ≤ s.config.addrMax.val

/-- Operand `o` designates the exact integer `x`: the raw value in Position mode, `rb` plus the raw value in Relative mode (R57, R59). -/
def Designates (s : State) (o : Operand) (x : Int) : Prop :=
  (o.mode = .position ∧ x = o.raw.toInt) ∨ (o.mode = .relative ∧ x = s.rb.toInt + o.raw.toInt)

/-- The read operand `o` resolves to the Word `v` (R57): the raw value in Immediate mode, else the Word at a legal address. -/
def ReadsAs (s : State) (o : Operand) (v : Word) : Prop :=
  (o.mode = .immediate ∧ v = o.raw) ∨
    (∃ x, Designates s o x ∧ LegalAddress s x ∧ v = s.mem.read x.toNat)

/-- The write target `o` is the legal address `d` (R58). -/
def Targets (s : State) (o : Operand) (d : Nat) : Prop :=
  Designates s o d ∧ LegalAddress s d

/-- Address generation for operand `o` raises the fault `c` (R56). -/
def AddressFaults (s : State) (o : Operand) (c : Cause) : Prop :=
  ∃ x, Designates s o x ∧ ((x < 0 ∧ c = .negativeAddress) ∨ ((s.config.addrMax.val : Int) < x ∧ c = .addressRange))

/-- Address generation for operand `o` raises no fault. -/
def AddressOk (s : State) (o : Operand) : Prop :=
  o.mode = .immediate ∨ ∃ x, Designates s o x ∧ LegalAddress s x

/-- An instruction of `len` Words at `ip` passes the length check (R138). -/
def Fits (s : State) (len : Nat) : Prop := (s.ip : Int) + len ≤ wordMax

/-! ## Effects -/

/-- `r` is `wrap64(x)`: the Word congruent to `x` modulo `2^64` (R9). -/
def IsWrapOf (r : Word) (x : Int) : Prop := ∃ k : Int, x = r.toInt + k * 18446744073709551616

/-- `r` is what an exact result `x` is stored as under policy `p` (R160): `x` itself where it fits, else its wrap under `Wrap`. -/
def NarrowsTo (p : OverflowPolicy) (x : Int) (r : Word) : Prop :=
  (wordMin ≤ x ∧ x ≤ wordMax ∧ r.toInt = x) ∨ (¬ (wordMin ≤ x ∧ x ≤ wordMax) ∧ p = .wrap ∧ IsWrapOf r x)

/-- `t` is `s` after `MemWrite(d, 1, v)` and `ip <- ip + len`, with everything else as it was (R53). -/
def Stored (s t : State) (d : Nat) (v : Word) (len : Nat) : Prop :=
  t.mem.read d = v ∧ (∀ x, x ≠ d → t.mem.read x = s.mem.read x) ∧ t.memLen = max s.memLen (d + 1) ∧
    t.ip = s.ip + len ∧ t = { s with mem := t.mem, memLen := t.memLen, ip := t.ip }

/-- The write target of an instruction that has one (R69, R98). -/
def writeTargetOf (i : Instr) : Option Operand :=
  match i with
  | .add _ _ dst => some dst
  | .multiply _ _ dst => some dst
  | .input dst => some dst
  | .output _ => none
  | .jumpIfTrue _ _ => none
  | .jumpIfFalse _ _ => none
  | .lessThan _ _ dst => some dst
  | .equals _ _ dst => some dst
  | .adjustRelativeBase _ => none
  | .halt => none

/-- The Word `v` that instruction `i` stores at its write target (R160, R162, R170, R190, R192); false of an instruction without
one, and where the instruction stalls or faults in phase 7. -/
def StoresValue (s : State) (i : Instr) (v : Word) : Prop :=
  match i with
  | .add a b _ => ∃ x y, ReadsAs s a x ∧ ReadsAs s b y ∧ NarrowsTo s.config.overflowPolicy (x.toInt + y.toInt) v
  | .multiply a b _ => ∃ x y, ReadsAs s a x ∧ ReadsAs s b y ∧ NarrowsTo s.config.overflowPolicy (x.toInt * y.toInt) v
  | .input _ => s.inQueue.head? = some v
  | .output _ => False
  | .jumpIfTrue _ _ => False
  | .jumpIfFalse _ _ => False
  | .lessThan a b _ => ∃ x y, ReadsAs s a x ∧ ReadsAs s b y ∧ v = if x.toInt < y.toInt then 1 else 0
  | .equals a b _ => ∃ x y, ReadsAs s a x ∧ ReadsAs s b y ∧ v = if x.toInt = y.toInt then 1 else 0
  | .adjustRelativeBase _ => False
  | .halt => False

/-- `s` with the fault `c` taken (R221). -/
def Faulted (s : State) (c : Cause) : State := { s with runState := .faulted, faultCause := some c }

/-! ## Running -/

/-- The core is released and Running: its step is enabled but for the Input stall (R130). -/
def Enabled (s : State) : Prop := s.started = true ∧ s.runState = .running

/-- The four Words from `ip` on, the longest an instruction can be (R90). -/
def wordsAtIp (s : State) : List Word :=
  [s.mem.read s.ip, s.mem.read (s.ip + 1), s.mem.read (s.ip + 2), s.mem.read (s.ip + 3)]

/-- The next instruction is `i`: its words stand at `ip`, all at legal addresses. -/
def NextInstr (s : State) (i : Instr) : Prop :=
  (∃ rest, decode (wordsAtIp s) = .ok (i, rest)) ∧ s.ip + i.operands.length ≤ s.config.addrMax.val

/-- The core stands at an Input that stalls: its target is good, the inbound port empty and open (R141). -/
def Stalls (s : State) : Prop :=
  ∃ dst d, NextInstr s (.input dst) ∧ Fits s 2 ∧ Targets s dst d ∧ s.inQueue = [] ∧ s.inClosed = false

/-- A run has ended (R273). -/
def Ended (s : State) : Prop := s.runState = .halted ∨ s.runState = .faulted

/-- A run has ended well: only at Halted (R273). -/
def EndedWell (s : State) : Prop := s.runState = .halted

/-! ## The invariant of a core -/

/-- What every reachable state satisfies: the store is in canonical form and lies below `mem_len` (R31), `mem_len` is at most
`MEM_CAPACITY` (R22), `ip` is an Address (R23), a fault cause is recorded exactly in Faulted (R28), an unattached inbound port is
empty and closed (R33), a closed flag is set exactly where the environment has closed the port or no endpoint is attached (R33,
R34, R44), and a core not yet started is as reset left it but for its store, its inbound queue and closed flags (R260, R272). -/
abbrev CoreInvariant (s : State) : Prop :=
  s.mem.wf = true ∧ (∀ c ∈ s.mem, c.1 < s.memLen) ∧ s.memLen ≤ s.config.addrMax.val + 1 ∧ (s.ip : Int) ≤ wordMax ∧
    (s.faultCause.isSome = true ↔ s.runState = .faulted) ∧
    (s.config.inAttached = false → s.inQueue = []) ∧ s.inClosed = (s.inShut || !s.config.inAttached) ∧
    s.outPorts.map (·.closed) = (List.range s.nOut).map s.outShut.contains ∧
    (s.started = false → s.runState = .running ∧ s.ip = 0 ∧ s.rb = 0 ∧ ∀ p ∈ s.outPorts, p.queue = [])

/-! ## The spec's pseudocode of a step (R109, R144, R160 to R205), over opcode numbers and lists -/

namespace Pseudocode

/-- `ARITY` (R98), by opcode number; none for an opcode not in the table. -/
def arity (op : Nat) : Option Nat :=
  if op ∈ [1, 2, 7, 8] then some 3
  else if op ∈ [5, 6] then some 2
  else if op ∈ [3, 4, 9] then some 1
  else if op = 99 then some 0
  else none

/-- `WT` (R109); 0 for an operation without a write target. -/
def writeTarget (op : Nat) : Nat := if op ∈ [1, 2, 7, 8] then 3 else if op = 3 then 1 else 0

/-- `check(x)` (R56). -/
def check (s : State) (x : Int) : Except Cause Int :=
  if x < 0 then .error .negativeAddress else if x > s.config.addrMax.val then .error .addressRange else .ok x

/-- The loop of `decode()` (R109) over operands `k`, `k+1`, ..., `left` of them. -/
def modes (w op k left : Nat) : Except Cause (List Nat) :=
  match left with
  | 0 => .ok []
  | left + 1 => do
    let m := w / 10 ^ (k + 1) % 10
    if m ∉ [0, 1, 2] then .error .unknownAddressingMode
    else if k = writeTarget op ∧ m = 1 then .error .invalidDestinationMode
    else do
      let rest ← modes w op (k + 1) left
      .ok (m :: rest)

/-- `decode()` (R109): the opcode, the arity and the mode digits. -/
def decode (s : State) : Except Cause (Nat × Nat × List Nat) := do
  let a ← check s s.ip
  let w := (s.mem.read a.toNat).toInt
  if w < 0 then .error .unknownOpcode
  else
    match arity (w.toNat % 100) with
    | none => .error .unknownOpcode
    | some n => do
      let ms ← modes w.toNat (w.toNat % 100) 1 n
      .ok (w.toNat % 100, n, ms)

/-- Phase 5 (R144): the raw values of operands `k`, `k+1`, ..., `left` of them. -/
def raws (s : State) (k left : Nat) : Except Cause (List Word) :=
  match left with
  | 0 => .ok []
  | left + 1 => do
    let a ← check s ((s.ip : Int) + k)
    let rest ← raws s (k + 1) left
    .ok (s.mem.read a.toNat :: rest)

/-- Phase 6 (R144): the effective address of each operand in turn, -1 standing for the none of an Immediate. -/
def addresses (s : State) (ms : List Nat) (rs : List Word) : Except Cause (List Int) :=
  match ms, rs with
  | m :: ms, r :: rs => do
    let ea ← if m = 0 then check s r.toInt else if m = 2 then check s (s.rb.toInt + r.toInt) else .ok (-1)
    let rest ← addresses s ms rs
    .ok (ea :: rest)
  | _, _ => .ok []

/-- `val_k` (R144), `k` counting from 0 here. -/
def value (s : State) (ms : List Nat) (rs : List Word) (eas : List Int) (k : Nat) : Word :=
  if ms.getD k 0 = 1 then rs.getD k 0 else s.mem.read (eas.getD k 0).toNat

/-- `MemWrite(d, 1, v)` then `ip <- ip + len`. -/
def put (s : State) (d : Int) (v : Word) (len : Nat) : State :=
  { s with mem := s.mem.write d.toNat v, memLen := max s.memLen (d.toNat + 1), ip := s.ip + len }

/-- The overflow branch of R160, R162 and R200. -/
def result (s : State) (x : Int) : Except Cause Word :=
  if wordMin ≤ x ∧ x ≤ wordMax then .ok (BitVec.ofInt 64 x)
  else if s.config.overflowPolicy = .wrap then .ok (BitVec.ofInt 64 x)
  else .error .arithmeticOverflow

/-- R172's loop over the ports from the first: the ports after it, and whether a closed one was met. -/
def fanOut (v : Word) (done todo : List OutPort) : List OutPort × Bool :=
  match todo with
  | [] => (done, false)
  | p :: rest => if p.closed then (done ++ p :: rest, true) else fanOut v (done ++ [⟨p.queue ++ [v], p.closed⟩]) rest

/-- `execute_<op>()` (R160 to R205), or the end of the step by a fault. -/
def execute (s : State) (op : Nat) (val : Nat → Word) (dst : Int) : Host.Outcome State Fault Refusal :=
  let raise (c : Cause) : Host.Outcome State Fault Refusal := .next (Faulted s c)
  if op = 1 then
    match result s ((val 0).toInt + (val 1).toInt) with
    | .ok r => .next (put s dst r 4)
    | .error c => raise c
  else if op = 2 then
    match result s ((val 0).toInt * (val 1).toInt) with
    | .ok r => .next (put s dst r 4)
    | .error c => raise c
  else if op = 3 then
    match s.inQueue with
    | v :: rest => .next { put s dst v 2 with inQueue := rest }
    | [] => if s.inClosed then raise .inputExhausted else .fault .inputStall
  else if op = 4 then
    match fanOut (val 0) [] s.outPorts with
    | (ps, false) => .next { s with outPorts := ps, ip := s.ip + 2 }
    | (ps, true) => .next (Faulted { s with outPorts := ps } .outputClosed)
  else if op = 5 then
    if (val 0).toInt ≠ 0 then
      if (val 1).toInt < 0 then raise .negativeAddress else .next { s with ip := (val 1).toInt.toNat }
    else .next { s with ip := s.ip + 3 }
  else if op = 6 then
    if (val 0).toInt = 0 then
      if (val 1).toInt < 0 then raise .negativeAddress else .next { s with ip := (val 1).toInt.toNat }
    else .next { s with ip := s.ip + 3 }
  else if op = 7 then .next (put s dst (if (val 0).toInt < (val 1).toInt then 1 else 0) 4)
  else if op = 8 then .next (put s dst (if (val 0).toInt = (val 1).toInt then 1 else 0) 4)
  else if op = 9 then
    match result s (s.rb.toInt + (val 0).toInt) with
    | .ok r => .next { s with rb := r, ip := s.ip + 2 }
    | .error c => raise c
  else .next { s with runState := .halted }

/-- Phases 1 to 6, in R144's order. -/
def prepare (s : State) : Except Cause (Nat × (Nat → Word) × Int) := do
  let (op, n, ms) ← decode s
  if op ≠ 99 ∧ (s.ip : Int) + n + 1 > wordMax then .error .addressRange
  else do
    let rs ← raws s 1 n
    let eas ← addresses s ms rs
    .ok (op, value s ms rs eas, eas.getD (writeTarget op - 1) 0)

/-- `step()` (R144), of a core that is released and Running. -/
def step (s : State) : Host.Outcome State Fault Refusal :=
  match prepare s with
  | .error c => .next (Faulted s c)
  | .ok (op, val, dst) => execute s op val dst

end Pseudocode

/-! ## Schedules -/

/-- A schedule of core steps and deliveries on the inbound port alone. -/
def Move.isDelivery (m : Move) : Bool :=
  match m with
  | .core => true
  | .env e =>
    match e with
    | .appendIn _ => true
    | .reset => false
    | .load _ => false
    | .fixEndpoints _ _ => false
    | .start => false
    | .closeIn => false
    | .takeOut _ => false
    | .closeOut _ => false

/-- The Words a schedule delivers, in order. -/
def delivered (ms : List Move) : List Word :=
  match ms with
  | [] => []
  | .env (.appendIn v) :: rest => v :: delivered rest
  | _ :: rest => delivered rest

/-- How many steps of the core a schedule holds. -/
def coreSteps (ms : List Move) : Nat := ms.countP (· = .core)

end Sys2Proof.Machine
end

