-- ==== Sys2Proof/Certificates/Slice0/Obligations.lean ====
section
/-! DEFINITION. The statements for the provers, from the spec's numbered rules. -/

open Sys2Proof Sys2Proof.Machine

/-! ## Encoding and decoding (30_encoding.md) -/

/-- The decode examples of R110, each instruction word as the table prints it. -/
def Obligations.SpecWordsDecode : Prop :=
  decodeHead 1 = .ok ⟨.add, .position, .position, .position⟩ ∧
  decodeHead 1002 = .ok ⟨.multiply, .position, .immediate, .position⟩ ∧
  decodeHead 1101 = .ok ⟨.add, .immediate, .immediate, .position⟩ ∧
  decodeHead 21107 = .ok ⟨.lessThan, .immediate, .immediate, .relative⟩ ∧
  decodeHead 109 = .ok ⟨.adjustRelativeBase, .immediate, .position, .position⟩ ∧
  decodeHead 203 = .ok ⟨.input, .relative, .position, .position⟩ ∧
  decodeHead 204 = .ok ⟨.output, .relative, .position, .position⟩ ∧
  decodeHead 1105 = .ok ⟨.jumpIfTrue, .immediate, .immediate, .position⟩ ∧
  decodeHead 99 = .ok ⟨.halt, .position, .position, .position⟩ ∧
  decodeHead 10099 = .ok ⟨.halt, .position, .position, .position⟩ ∧
  decodeHead 0 = .error .unknownOpcode ∧
  decodeHead 33 = .error .unknownOpcode ∧
  decodeHead (-1) = .error .unknownOpcode ∧
  decodeHead 301 = .error .unknownAddressingMode ∧
  decodeHead 10001 = .error .invalidDestinationMode ∧
  decodeHead 103 = .error .invalidDestinationMode ∧
  decodeHead 13001 = .error .unknownAddressingMode

/-- R111: decoding the canonical encoding of a well-formed instruction gives it back, with the Words after it. -/
def Obligations.DecodeInvertsEncode : Prop :=
  ∀ (i : Instr) (rest : List Word), i.wellFormed = true → decode (encode i ++ rest) = .ok (i, rest)

/-- R111, R101, R103: what the decoder accepts is a well-formed instruction, whose canonical instruction word is the low
`n + 2` decimal digits of the word decoded, and whose raw values are the Words that follow it. -/
def Obligations.EncodeInvertsDecode : Prop :=
  ∀ (w : Word) (ws rest : List Word) (i : Instr), decode (w :: ws) = .ok (i, rest) →
    i.wellFormed = true ∧ (encodeHead i).toNat = w.toNat % 10 ^ (i.operands.length + 2) ∧
      (i.operands.length ≤ ws.length → i.operands.map (·.raw) ++ rest = ws)

/-- R96: two non-negative words that agree in the digits the operation uses decode alike, whatever their other digits. -/
def Obligations.UnusedDigitsIgnored : Prop :=
  ∀ (w u : Word) (op : Opcode), 0 ≤ w.toInt → 0 ≤ u.toInt → opcodeOfNumber (w.toNat % 100) = some op →
    w.toNat % 10 ^ (op.arity + 2) = u.toNat % 10 ^ (op.arity + 2) → decodeHead w = decodeHead u

/-! ## The step (40_step_and_operands.md) -/

/-- R99, R95: the step takes UnknownOpcode exactly when the word fetched is negative or its last two digits are no opcode. -/
def Obligations.UnknownOpcodeExactly : Prop :=
  ∀ s : State, Enabled s → s.ip ≤ s.config.addrMax.val →
    (step s = .next (Faulted s .unknownOpcode) ↔
      ((s.mem.read s.ip).toInt < 0 ∨ (s.mem.read s.ip).toNat % 100 ∉ [1, 2, 3, 4, 5, 6, 7, 8, 9, 99]))

/-- R100: a mode digit 3 to 9 on any operand of the operation raises UnknownAddressingMode. -/
def Obligations.UnknownModeFaults : Prop :=
  ∀ (s : State) (op : Opcode) (k : Nat), Enabled s → s.ip ≤ s.config.addrMax.val → 0 ≤ (s.mem.read s.ip).toInt →
    opcodeOfNumber ((s.mem.read s.ip).toNat % 100) = some op → 1 ≤ k → k ≤ op.arity →
    3 ≤ (s.mem.read s.ip).toNat / 10 ^ (k + 1) % 10 → step s = .next (Faulted s .unknownAddressingMode)

/-- R101, R139: an Immediate write target raises InvalidDestinationMode, unless an operand before it has an unknown mode. -/
def Obligations.ImmediateTargetFaults : Prop :=
  ∀ (s : State) (op : Opcode) (k : Nat), Enabled s → s.ip ≤ s.config.addrMax.val → 0 ≤ (s.mem.read s.ip).toInt →
    opcodeOfNumber ((s.mem.read s.ip).toNat % 100) = some op → op.writeTarget = some k →
    (s.mem.read s.ip).toNat / 10 ^ (k + 1) % 10 = 1 →
    (∀ j, 1 ≤ j → j < k → (s.mem.read s.ip).toNat / 10 ^ (j + 1) % 10 ≤ 2) →
    step s = .next (Faulted s .invalidDestinationMode)

/-- R140, R144: where the words at `ip` decode to an instruction and lie at legal addresses, the step is that instruction. -/
def Obligations.StepRunsDecoded : Prop :=
  ∀ (s : State) (i : Instr), Enabled s → NextInstr s i → step s = exec i s

/-- R142, R260, R27: in Halted, in Faulted and before start the core has no step. -/
def Obligations.NoStepWhenStopped : Prop :=
  ∀ s : State, (s.started = false → step s = .fault .notStarted) ∧
    (s.started = true → s.runState = .halted → step s = .fault .alreadyHalted) ∧
    (s.started = true → s.runState = .faulted → step s = .fault .alreadyFaulted)

/-- R130, R141: the core has a step exactly when it is Running and released and does not stand at a stalling Input. -/
def Obligations.StepExactlyWhenRunning : Prop :=
  ∀ s : State, (∃ t, step s = .next t) ↔ Enabled s ∧ ¬ Stalls s

/-- R143, R104: no word and no state is refused: a step is a next state, or the core has no step for a reason the spec gives. -/
def Obligations.StepNeverRefuses : Prop :=
  ∀ (s : State) (r : Refusal), step s ≠ .refused r

/-- Every instruction answers a next state, but an Input that stalls (R104, R141). -/
def Obligations.OnlyInputStalls : Prop :=
  ∀ (i : Instr) (s : State), (∃ t, exec i s = .next t) ∨ ((∃ dst, i = .input dst) ∧ exec i s = .fault .inputStall)

/-- R144: the machine's step is the spec's pseudocode of a step, phase by phase. -/
def Obligations.StepIsPseudocode : Prop :=
  ∀ s : State, Enabled s → step s = Pseudocode.step s

/-- R138: an operation other than Halt whose length check fails raises AddressRange, taken jump or not; Halt is exempt. -/
def Obligations.LengthCheckFaults : Prop :=
  ∀ (s : State) (h : Head), Enabled s → s.ip ≤ s.config.addrMax.val → decodeHead (s.mem.read s.ip) = .ok h →
    (h.op ≠ .halt → wordMax < (s.ip : Int) + h.op.arity + 1 → step s = .next (Faulted s .addressRange)) ∧
      (h.op = .halt → step s = .next { s with runState := .halted })

/-- R138 for the instruction itself: a well-formed instruction that fails the length check takes AddressRange. -/
def Obligations.LengthCheckInExec : Prop :=
  ∀ (s : State) (i : Instr), i.wellFormed = true → i ≠ .halt → ¬ Fits s i.length → exec i s = .next (Faulted s .addressRange)

/-- R56, R73, R132: a fetch address or an operand word's address above `ADDR_MAX` raises AddressRange. -/
def Obligations.FetchAboveCapacityFaults : Prop :=
  ∀ s : State, Enabled s →
    (s.config.addrMax.val < s.ip → step s = .next (Faulted s .addressRange)) ∧
      (∀ h : Head, s.ip ≤ s.config.addrMax.val → decodeHead (s.mem.read s.ip) = .ok h →
        s.config.addrMax.val < s.ip + h.op.arity → step s = .next (Faulted s .addressRange))

/-- R134: an operand whose address is negative or out of range faults the instruction, the lowest such operand first,
whether or not its value would have been used. -/
def Obligations.AddressFaultsAreEager : Prop :=
  ∀ (i : Instr) (s : State) (pre post : List Operand) (o : Operand) (c : Cause), i.wellFormed = true →
    i.operands = pre ++ o :: post → Fits s i.length → (∀ p ∈ pre, AddressOk s p) → AddressFaults s o c →
    exec i s = .next (Faulted s c)

/-- R222: a faulting step writes nothing but `run_state` and `fault_cause`; only OutputClosed with `N_OUT >= 2` may leave
outbound ports changed. -/
def Obligations.FaultsArePrecise : Prop :=
  ∀ s t : State, step s = .next t → t.runState = .faulted →
    ∃ c, t.faultCause = some c ∧ t = { s with runState := .faulted, faultCause := some c, outPorts := t.outPorts } ∧
      (t.outPorts ≠ s.outPorts → c = .outputClosed ∧ 2 ≤ s.nOut)

/-! ## The instructions -/

/-- R160: Add stores the sum, wrapped where it does not fit under `Wrap`, and falls through. -/
def Obligations.AddStoresSum : Prop :=
  ∀ (s : State) (a b dst : Operand) (x y r : Word) (d : Nat), ReadsAs s a x → ReadsAs s b y → Targets s dst d → Fits s 4 →
    NarrowsTo s.config.overflowPolicy (x.toInt + y.toInt) r → ∃ t, exec (.add a b dst) s = .next t ∧ Stored s t d r 4

/-- R162: Multiply stores the signed product, wrapped where it does not fit under `Wrap`, and falls through. -/
def Obligations.MultiplyStoresProduct : Prop :=
  ∀ (s : State) (a b dst : Operand) (x y r : Word) (d : Nat), ReadsAs s a x → ReadsAs s b y → Targets s dst d → Fits s 4 →
    NarrowsTo s.config.overflowPolicy (x.toInt * y.toInt) r → ∃ t, exec (.multiply a b dst) s = .next t ∧ Stored s t d r 4

/-- R164: under `Wrap` the stored sum and product are those of the integers modulo `2^64`, for all Words. -/
def Obligations.WrapIsModular : Prop :=
  ∀ (s : State) (a b dst : Operand) (x y : Word) (d : Nat), s.config.overflowPolicy = .wrap → ReadsAs s a x → ReadsAs s b y →
    Targets s dst d → Fits s 4 →
      (∃ t, exec (.add a b dst) s = .next t ∧ t.mem.read d = x + y) ∧
        (∃ t, exec (.multiply a b dst) s = .next t ∧ t.mem.read d = x * y)

/-- R160, R162, R200, R218: under `Fault` a result outside a Word raises ArithmeticOverflow and writes nothing. -/
def Obligations.OverflowFaults : Prop :=
  ∀ (s : State) (a b dst : Operand) (x y : Word) (d : Nat), s.config.overflowPolicy = .fault → ReadsAs s a x →
    (ReadsAs s b y → Targets s dst d → Fits s 4 → ¬ (wordMin ≤ x.toInt + y.toInt ∧ x.toInt + y.toInt ≤ wordMax) →
        exec (.add a b dst) s = .next (Faulted s .arithmeticOverflow)) ∧
      (ReadsAs s b y → Targets s dst d → Fits s 4 → ¬ (wordMin ≤ x.toInt * y.toInt ∧ x.toInt * y.toInt ≤ wordMax) →
        exec (.multiply a b dst) s = .next (Faulted s .arithmeticOverflow)) ∧
      (Fits s 2 → ¬ (wordMin ≤ s.rb.toInt + x.toInt ∧ s.rb.toInt + x.toInt ≤ wordMax) →
        exec (.adjustRelativeBase a) s = .next (Faulted s .arithmeticOverflow))

/-- R218: under `Wrap` no step raises ArithmeticOverflow. -/
def Obligations.WrapNeverOverflows : Prop :=
  ∀ s t : State, s.config.overflowPolicy = .wrap → step s = .next t → t.runState = .faulted →
    t.faultCause ≠ some .arithmeticOverflow

/-- R170: Input with a word waiting takes the head of the queue, open or closed, stores it and falls through. -/
def Obligations.InputTakesHead : Prop :=
  ∀ (s : State) (dst : Operand) (d : Nat) (v : Word) (rest : List Word), Targets s dst d → Fits s 2 → s.inQueue = v :: rest →
    ∃ t, exec (.input dst) s = .next t ∧ Stored { s with inQueue := rest } t d v 2

/-- R170, R141: Input on an empty port raises InputExhausted if the port is closed, and has no step if it is open. -/
def Obligations.InputOnEmptyPort : Prop :=
  ∀ (s : State) (dst : Operand) (d : Nat), Targets s dst d → Fits s 2 → s.inQueue = [] →
    (s.inClosed = true → exec (.input dst) s = .next (Faulted s .inputExhausted)) ∧
      (s.inClosed = false → exec (.input dst) s = .fault .inputStall)

/-- R172: Output appends its value to every outbound port and falls through; with no port it only falls through. -/
def Obligations.OutputReachesEveryPort : Prop :=
  ∀ (s : State) (a : Operand) (v : Word), ReadsAs s a v → Fits s 2 → (∀ p ∈ s.outPorts, p.closed = false) →
    exec (.output a) s =
      .next { s with outPorts := s.outPorts.map fun p => { p with queue := p.queue ++ [v] }, ip := s.ip + 2 }

/-- R173: at the first closed port OutputClosed is raised; the ports before it have the value, it and the later ones do not. -/
def Obligations.OutputStopsAtClosedPort : Prop :=
  ∀ (s : State) (a : Operand) (v : Word) (pre post : List OutPort) (p : OutPort), ReadsAs s a v → Fits s 2 →
    s.outPorts = pre ++ p :: post → (∀ q ∈ pre, q.closed = false) → p.closed = true →
    exec (.output a) s =
      .next (Faulted { s with outPorts := pre.map (fun q => { q with queue := q.queue ++ [v] }) ++ p :: post } .outputClosed)

/-- R180, R183: JumpIfTrue jumps on any non-zero value, faults on a negative taken target, else falls through. -/
def Obligations.JumpIfTrueGoes : Prop :=
  ∀ (s : State) (cond target : Operand) (c t : Word), ReadsAs s cond c → ReadsAs s target t → Fits s 3 →
    (c.toInt ≠ 0 → 0 ≤ t.toInt → exec (.jumpIfTrue cond target) s = .next { s with ip := t.toInt.toNat }) ∧
      (c.toInt = 0 → exec (.jumpIfTrue cond target) s = .next { s with ip := s.ip + 3 }) ∧
      (c.toInt ≠ 0 → t.toInt < 0 → exec (.jumpIfTrue cond target) s = .next (Faulted s .negativeAddress))

/-- R182, R183: JumpIfFalse jumps on zero, faults on a negative taken target, else falls through. -/
def Obligations.JumpIfFalseGoes : Prop :=
  ∀ (s : State) (cond target : Operand) (c t : Word), ReadsAs s cond c → ReadsAs s target t → Fits s 3 →
    (c.toInt = 0 → 0 ≤ t.toInt → exec (.jumpIfFalse cond target) s = .next { s with ip := t.toInt.toNat }) ∧
      (c.toInt ≠ 0 → exec (.jumpIfFalse cond target) s = .next { s with ip := s.ip + 3 }) ∧
      (c.toInt = 0 → t.toInt < 0 → exec (.jumpIfFalse cond target) s = .next (Faulted s .negativeAddress))

/-- R190: LessThan stores 1 if the first value is less than the second as signed integers, else 0, and falls through. -/
def Obligations.LessThanStoresComparison : Prop :=
  ∀ (s : State) (a b dst : Operand) (x y : Word) (d : Nat), ReadsAs s a x → ReadsAs s b y → Targets s dst d → Fits s 4 →
    ∃ t, exec (.lessThan a b dst) s = .next t ∧ Stored s t d (if x.toInt < y.toInt then 1 else 0) 4

/-- R192: Equals stores 1 if the two values are equal, else 0, and falls through. -/
def Obligations.EqualsStoresComparison : Prop :=
  ∀ (s : State) (a b dst : Operand) (x y : Word) (d : Nat), ReadsAs s a x → ReadsAs s b y → Targets s dst d → Fits s 4 →
    ∃ t, exec (.equals a b dst) s = .next t ∧ Stored s t d (if x.toInt = y.toInt then 1 else 0) 4

/-- R200, R201: AdjustRelativeBase adds its value, resolved with the old `rb`, to `rb` and falls through. -/
def Obligations.AdjustRelativeBaseAdds : Prop :=
  ∀ (s : State) (a : Operand) (v r : Word), ReadsAs s a v → Fits s 2 →
    NarrowsTo s.config.overflowPolicy (s.rb.toInt + v.toInt) r →
    exec (.adjustRelativeBase a) s = .next { s with rb := r, ip := s.ip + 2 }

/-- R205: Halt sets `run_state` to Halted and changes nothing else, at any legal `ip`, surplus digits or not. -/
def Obligations.HaltHalts : Prop :=
  ∀ s : State, exec .halt s = .next { s with runState := .halted } ∧
    (Enabled s → s.ip ≤ s.config.addrMax.val → 0 ≤ (s.mem.read s.ip).toInt → (s.mem.read s.ip).toNat % 100 = 99 →
      step s = .next { s with runState := .halted })

/-- R66: what any of the five storing instructions writes into the words of the next instruction is what the next fetch reads:
as its instruction word (`k = 0`), and as its operand word `k`. -/
def Obligations.StoreSeenByNextFetch : Prop :=
  ∀ (s : State) (i : Instr) (dst : Operand) (v : Word) (k : Nat), Enabled s → NextInstr s i → writeTargetOf i = some dst →
    Targets s dst (s.ip + i.length + k) → Fits s i.length → StoresValue s i v →
    ∃ t, step s = .next t ∧ t.ip = s.ip + i.length ∧
      (k = 0 → fetchHead t =
        match decodeHead v with
        | .ok h => .ok h
        | .error e => .error (Cause.ofDecodeError e)) ∧
      (∀ n, 1 ≤ k → k ≤ n → fetchOperand t n k = .ok v)

/-! ## Frames -/

/-- What Add, Multiply, LessThan and Equals leave unchanged (R26, R33, R34, R53, R222): every address but the target's, every
register but `ip`, every port, the parameters; a fault leaves memory and `ip` too. -/
def Obligations.StoringFrame : Prop :=
  ∀ (a b dst : Operand) (i : Instr) (s t : State),
    (i = .add a b dst ∨ i = .multiply a b dst ∨ i = .lessThan a b dst ∨ i = .equals a b dst) → exec i s = .next t →
    t.config = s.config ∧ t.rb = s.rb ∧ t.inQueue = s.inQueue ∧ t.inClosed = s.inClosed ∧ t.outPorts = s.outPorts ∧
      t.started = s.started ∧ t.inShut = s.inShut ∧ t.outShut = s.outShut ∧ (∀ x, targetAddress s dst ≠ .ok x → t.mem.read x = s.mem.read x) ∧
      ((t.runState = s.runState ∧ t.faultCause = s.faultCause) ∨
        (t.runState = .faulted ∧ (∀ x, t.mem.read x = s.mem.read x) ∧ t.memLen = s.memLen ∧ t.ip = s.ip))

/-- What Input leaves unchanged (R26, R34, R53, R175): every address but the target's, every register but `ip`, the outbound ports;
the queue keeps all but its head, and a fault consumes nothing. -/
def Obligations.InputFrame : Prop :=
  ∀ (dst : Operand) (s t : State), exec (.input dst) s = .next t →
    t.config = s.config ∧ t.rb = s.rb ∧ t.inClosed = s.inClosed ∧ t.outPorts = s.outPorts ∧ t.started = s.started ∧
      t.inShut = s.inShut ∧ t.outShut = s.outShut ∧ (∀ x, targetAddress s dst ≠ .ok x → t.mem.read x = s.mem.read x) ∧
      ((t.runState = s.runState ∧ t.faultCause = s.faultCause ∧ ∃ v, s.inQueue = v :: t.inQueue) ∨
        (t.runState = .faulted ∧ (∀ x, t.mem.read x = s.mem.read x) ∧ t.memLen = s.memLen ∧ t.ip = s.ip ∧
          t.inQueue = s.inQueue))

/-- What Output, the two jumps, AdjustRelativeBase and Halt leave unchanged (R26, R69, R175, R184): all of memory, the inbound port,
the parameters; `rb` but for AdjustRelativeBase, the outbound ports but for Output, `ip` for Halt and for a fault. -/
def Obligations.NonStoringFrame : Prop :=
  ∀ (a b : Operand) (i : Instr) (s t : State),
    (i = .output a ∨ i = .jumpIfTrue a b ∨ i = .jumpIfFalse a b ∨ i = .adjustRelativeBase a ∨ i = .halt) → exec i s = .next t →
    (∀ x, t.mem.read x = s.mem.read x) ∧ t.memLen = s.memLen ∧ t.config = s.config ∧ t.inQueue = s.inQueue ∧
      t.inClosed = s.inClosed ∧ t.started = s.started ∧ t.inShut = s.inShut ∧ t.outShut = s.outShut ∧ (i ≠ .adjustRelativeBase a → t.rb = s.rb) ∧
      (i ≠ .output a → t.outPorts = s.outPorts) ∧
      ((t.runState = s.runState ∧ t.faultCause = s.faultCause ∧ i ≠ .halt) ∨
        (t.runState = .faulted ∧ t.ip = s.ip ∧ t.rb = s.rb) ∨
        (t.runState = .halted ∧ t.faultCause = s.faultCause ∧ t.ip = s.ip ∧ i = .halt))

/-! ## Whole-machine rules -/

/-- R26: `rb` is changed by no step but an AdjustRelativeBase. -/
def Obligations.OnlyAdjustWritesRb : Prop :=
  ∀ s t : State, step s = .next t → t.rb ≠ s.rb → ∃ a, NextInstr s (.adjustRelativeBase a)

/-- R24, R184: a step that leaves the core Running goes to the next instruction, unless it is one of the two jumps. -/
def Obligations.OnlyJumpsRedirect : Prop :=
  ∀ s t : State, step s = .next t → t.runState = .running →
    ∃ i, NextInstr s i ∧ (t.ip = s.ip + i.length ∨ ∃ c g, i = .jumpIfTrue c g ∨ i = .jumpIfFalse c g)

/-- R175: only Input takes from the inbound port and only Output writes to outbound ports; no step changes a closed flag. -/
def Obligations.PortsOnlyByInputAndOutput : Prop :=
  ∀ s t : State, step s = .next t →
    (t.inQueue ≠ s.inQueue → ∃ dst, NextInstr s (.input dst)) ∧
      (t.outPorts ≠ s.outPorts → ∃ a, NextInstr s (.output a)) ∧
      t.inClosed = s.inClosed ∧ t.outPorts.map (·.closed) = s.outPorts.map (·.closed)

/-- R69: memory is written only by the five instructions with a write target, and at one address. -/
def Obligations.OneWritePerStep : Prop :=
  ∀ s t : State, step s = .next t → ∀ x y : Nat, t.mem.read x ≠ s.mem.read x →
    (t.mem.read y ≠ s.mem.read y → x = y) ∧
      ∃ i, NextInstr s i ∧ ((∃ dst, i = .input dst) ∨
        ∃ a b dst, i = .add a b dst ∨ i = .multiply a b dst ∨ i = .lessThan a b dst ∨ i = .equals a b dst)

/-- R27, R28, R205: a step ends in Halted exactly at a Halt; it ends in Faulted with a cause recorded; else the core stays
Running and the recorded cause is as it was. -/
def Obligations.RunStateTransitions : Prop :=
  ∀ s t : State, step s = .next t →
    (t.runState = .halted ↔ NextInstr s .halt) ∧
      (t.runState = .faulted → t.faultCause.isSome = true) ∧ (t.runState ≠ .faulted → t.faultCause = s.faultCause)

/-- R31, R53, R54: `mem_len` only grows, and the addresses a growing write skips read 0. -/
def Obligations.MemoryLengthOnlyGrows : Prop :=
  ∀ s t : State, CoreInvariant s → step s = .next t →
    s.memLen ≤ t.memLen ∧ ∀ x, s.memLen ≤ x → x + 1 < t.memLen → t.mem.read x = 0

/-- R55: the store is the total map its reads give: two stores in canonical form that read alike are equal. -/
def Obligations.MemoryIsTotalMap : Prop :=
  ∀ m n : Memory, m.wf = true → n.wf = true → (∀ x, m.read x = n.read x) → m = n

/-! ## Invariants -/

/-- The invariant holds after reset, whatever the parameters (R40 to R44). -/
def Obligations.ResetSatisfiesInvariant : Prop :=
  CoreInvariant State.reset ∧ ∀ (c : Config) (n : Nat), CoreInvariant (State.resetWith c n)

/-- Every step of the core keeps the invariant (R22, R23, R25, R28, R31, R33). -/
def Obligations.StepKeepsInvariant : Prop :=
  ∀ s t : State, CoreInvariant s → step s = .next t → CoreInvariant t

/-- Every move of the environment keeps the invariant (R32, R33, R260 to R263). -/
def Obligations.EnvironmentKeepsInvariant : Prop :=
  ∀ (m : EnvMove) (s t : State), CoreInvariant s → envStep m s = .next t → CoreInvariant t

/-- The invariant holds in every state that any schedule of steps and environment moves reaches from reset. -/
def Obligations.ReachableStatesSatisfyInvariant : Prop :=
  ∀ (c : Config) (n : Nat) (ms : List Move) (t : State), runMoves ms (State.resetWith c n) = .next t → CoreInvariant t

/-! ## Reset, the environment and whole runs (70_reset_and_hazards.md) -/

/-- R260: reset, in any state, puts every element at its reset value, and the core then has no step until start. -/
def Obligations.ResetValues : Prop :=
  ∀ s : State, ∃ t, envStep .reset s = .next t ∧ (∀ x, t.mem.read x = 0) ∧ t.memLen = 0 ∧ t.ip = 0 ∧ t.rb = 0 ∧
    t.runState = .running ∧ t.faultCause = none ∧ t.inQueue = [] ∧ t.inClosed = !s.config.inAttached ∧
    t.outPorts = List.replicate s.outPorts.length { queue := [], closed := false } ∧ t.config = s.config ∧ t.inShut = false ∧ t.outShut = [] ∧ step t = .fault .notStarted

/-- R272: after reset, load, seeding and start, the state is exactly what the start premises say. -/
def Obligations.StartState : Prop :=
  ∀ (c : Config) (n : Nat) (image seeds : List Word), image.length ≤ c.addrMax.val + 1 → (c.inAttached = false → seeds = []) →
    ∃ t, runMoves (.env (.load image) :: seeds.map (fun v => .env (.appendIn v)) ++ [.env .start]) (State.resetWith c n) = .next t ∧
      Enabled t ∧ t.faultCause = none ∧ t.ip = 0 ∧ t.rb = 0 ∧ (∀ x, t.mem.read x = image.getD x 0) ∧ t.memLen = image.length ∧
      t.outPorts = List.replicate n { queue := [], closed := false } ∧ t.inQueue = seeds ∧ t.inClosed = !c.inAttached

/-- R142, R224, R260: a started core that is Halted or Faulted keeps its state under every event but reset. -/
def Obligations.OnlyResetLeavesTerminal : Prop :=
  ∀ (m : Move) (s t : State), Ended s → s.started = true → move m s = .next t → m ≠ .env .reset →
    t.runState = s.runState ∧ t.faultCause = s.faultCause ∧ t.mem = s.mem ∧ t.memLen = s.memLen ∧ t.ip = s.ip ∧ t.rb = s.rb

/-- R33, R34, R270: a close is irreversible until reset. What the environment has closed stays on record and closed under every
other event, fixing the endpoints included; the closed flag of a port only falls where an endpoint is attached to an inbound
port that was closed for want of one (R262, log entry 24). -/
def Obligations.ClosedStaysClosed : Prop :=
  ∀ (m : Move) (s t : State), CoreInvariant s → move m s = .next t → m ≠ .env .reset →
    (s.inShut = true → t.inShut = true ∧ t.inClosed = true) ∧
      (s.inClosed = true → (∀ n, m = .env (.fixEndpoints n true) → s.config.inAttached = true) → t.inClosed = true) ∧
      (∀ j ∈ s.outShut, j ∈ t.outShut ∧ ∀ q : OutPort, t.outPorts[j]? = some q → q.closed = true) ∧
      ∀ (j : Nat) (p q : OutPort), s.outPorts[j]? = some p → p.closed = true → t.outPorts[j]? = some q → q.closed = true

/-- R262, R264, R270: before start, with no Word on a port yet, the endpoints can be fixed, whatever has been closed: the core then has
that many empty outbound ports and that attachment, and a port is closed exactly where the environment has closed it since
reset or, inbound, where no endpoint is attached. -/
def Obligations.FixEndpointsSetsPorts : Prop :=
  ∀ (s : State) (n : Nat) (b : Bool), s.started = false → s.inQueue = [] → (∀ p ∈ s.outPorts, p.queue = []) →
    ∃ t, envStep (.fixEndpoints n b) s = .next t ∧ t.nOut = n ∧ t.config = { s.config with inAttached := b } ∧ t.inQueue = [] ∧
      (t.inClosed = true ↔ s.inShut = true ∨ b = false) ∧
      (∀ j < n, ∃ q : OutPort, t.outPorts[j]? = some q ∧ q.queue = [] ∧ (q.closed = true ↔ j ∈ s.outShut)) ∧
      t = { s with config := t.config, inQueue := [], inClosed := t.inClosed, outPorts := t.outPorts }

/-- R32, R270: no move of the environment but reset writes `ip`, `rb`, `run_state` or `fault_cause`, none but reset and load writes
the store, and on a started core, Running or not, none but reset writes any of them, the parameters or `N_OUT`. -/
def Obligations.EnvironmentLeavesCoreState : Prop :=
  ∀ (m : EnvMove) (s t : State), envStep m s = .next t → m ≠ .reset →
    t.ip = s.ip ∧ t.rb = s.rb ∧ t.runState = s.runState ∧ t.faultCause = s.faultCause ∧
      ((∀ image, m ≠ .load image) → t.mem = s.mem ∧ t.memLen = s.memLen) ∧
      (s.started = true → t.mem = s.mem ∧ t.memLen = s.memLen ∧ t.config = s.config ∧ t.nOut = s.nOut ∧ t.started = true)

/-- R261, R262, R270, R33: load and fixing the endpoints have no meaning once started, and nothing can be appended to a closed or
unattached inbound port. Start has no effect once started: R263 says so of a Running core, and that it does nothing to a Halted or
Faulted one is the model's choice (log entry 16), deduced from R142 and R260: only reset leaves those states. -/
def Obligations.ForbiddenMovesRefused : Prop :=
  ∀ s : State, (s.started = true → ∀ image n b, envStep (.load image) s = .refused .loadAfterStart ∧
      envStep (.fixEndpoints n b) s = .refused .endpointsAfterStart ∧ envStep .start s = .next s) ∧
    (s.inClosed = true → ∀ v, envStep (.appendIn v) s = .refused .inboundClosed)

/-- R37: the result is `mem[0]` when Halted and the fault code, as R210 numbers it, when Faulted; while Running there is none. -/
def Obligations.ResultOfRun : Prop :=
  ∀ s : State, (s.runState = .halted → s.result = some (.value (s.mem.read 0))) ∧
    (∀ c, s.runState = .faulted → s.faultCause = some c →
      s.result = some (.fault (match c with
        | .unknownOpcode => 1 | .unknownAddressingMode => 2 | .invalidDestinationMode => 3 | .inputExhausted => 4
        | .outputClosed => 5 | .negativeAddress => 6 | .addressRange => 7 | .arithmeticOverflow => 8))) ∧
    (s.runState = .running → s.result = none)

/-- R34: the core cannot observe the environment taking Words from an outbound queue: a step before or after comes to the same. -/
def Obligations.TakingOutputUnobserved : Prop :=
  ∀ (j : Nat) (s u t : State), envStep (.takeOut j) s = .next u → step s = .next t →
    ∃ v, step u = .next v ∧ envStep (.takeOut j) t = .next v

/-- R274, R35: the timing of deliveries does not matter. Two schedules of deliveries and core steps from one state, with as many
core steps, of which the second delivers the first's Words and then more, end in states that differ by those Words alone. -/
def Obligations.DeliveryTimingIrrelevant : Prop :=
  ∀ (ms ns : List Move) (s t u : State) (extra : List Word), (∀ m ∈ ms, m.isDelivery = true) → (∀ m ∈ ns, m.isDelivery = true) →
    runMoves ms s = .next t → runMoves ns s = .next u → coreSteps ms = coreSteps ns → delivered ns = delivered ms ++ extra →
    u = { t with inQueue := t.inQueue ++ extra }

/-! ## Several cores (60_exceptions.md) -/

/-- R229, R68: an event of a system changes no core it does not name, and no connection. -/
def Obligations.CoresShareNothing : Prop :=
  ∀ (m : SystemMove) (y z : System) (k : Nat), systemStep m y = .next z →
    (∀ i, m = .core i → i ≠ k) → (∀ i e, m = .env i e → i ≠ k) →
    (∀ n w, m = .forward n → y.wires[n]? = some w → w.fromCore ≠ k ∧ w.toCore ≠ k) →
    z.cores[k]? = y.cores[k]? ∧ z.cores.length = y.cores.length ∧ z.wires = y.wires

/-- R229: a connection carries the head of the outbound queue to the tail of the inbound one, in FIFO order. -/
def Obligations.ForwardIsFifo : Prop :=
  ∀ (y : System) (k : Nat) (w : Wire) (s d : State) (p : OutPort) (v : Word) (rest : List Word), y.wires[k]? = some w →
    y.cores[w.fromCore]? = some s → y.cores[w.toCore]? = some d → s.outPorts[w.fromPort]? = some p → p.queue = v :: rest →
    d.inClosed = false →
    ∃ z, systemStep (.forward k) y = .next z ∧
      (∃ a, z.cores[w.fromCore]? = some a ∧ a.outPorts = s.outPorts.set w.fromPort { p with queue := rest }) ∧
      (∃ b, z.cores[w.toCore]? = some b ∧ b.inQueue = d.inQueue ++ [v])
end

