-- ==== Sys2Proof/Laws/Operands.lean ====
section
/-! SUPPORT. Operand resolution: what each shared operation of Machine/Operands.lean answers, said in the addressing table's terms. -/

namespace Sys2Proof.Machine

@[simp] theorem bind_ok {ε α β : Type} (a : α) (f : α → Except ε β) : (Except.ok a >>= f) = f a := rfl
@[simp] theorem bind_error {ε α β : Type} (c : ε) (f : α → Except ε β) :
    ((Except.error c : Except ε α) >>= f) = .error c := rfl

/-- A sequence succeeds exactly when its first part does and then the rest does. -/
theorem bind_eq_ok {ε α β : Type} {x : Except ε α} {f : α → Except ε β} {b : β} :
    (x >>= f) = .ok b ↔ ∃ a, x = .ok a ∧ f a = .ok b := by
  cases x <;> simp

/-- A sequence fails exactly when its first part does, or the rest does after it. -/
theorem bind_eq_error {ε α β : Type} {x : Except ε α} {f : α → Except ε β} {c : ε} :
    (x >>= f) = .error c ↔ x = .error c ∨ ∃ a, x = .ok a ∧ f a = .error c := by
  cases x <;> simp

theorem checkAddress_ok_iff {s : State} {x : Int} {a : Nat} :
    checkAddress s x = .ok a ↔ LegalAddress s x ∧ a = x.toNat := by
  unfold checkAddress LegalAddress State.addrMax
  split
  · exact ⟨fun h => (nomatch h), fun h => by omega⟩
  · split
    · exact ⟨fun h => (nomatch h), fun h => by omega⟩
    · simp only [Except.ok.injEq]; omega

theorem checkAddress_error_iff {s : State} {x : Int} {c : Cause} :
    checkAddress s x = .error c ↔
      (x < 0 ∧ c = .negativeAddress) ∨ ((s.config.addrMax.val : Int) < x ∧ c = .addressRange) := by
  unfold checkAddress State.addrMax
  split
  · rename_i h
    simp only [Except.error.injEq]
    exact ⟨fun e => .inl ⟨h, e.symm⟩, fun e => by rcases e with ⟨_, e⟩ | ⟨_, e⟩ <;> [exact e.symm; omega]⟩
  · split
    · rename_i h
      simp only [Except.error.injEq]
      exact ⟨fun e => .inr ⟨h, e.symm⟩, fun e => by rcases e with ⟨_, e⟩ | ⟨_, e⟩ <;> [omega; exact e.symm]⟩
    · exact ⟨fun h => (nomatch h), fun h => by omega⟩

theorem lengthCheck_ok_iff {s : State} {len : Nat} {u : Unit} : lengthCheck s len = .ok u ↔ Fits s len := by
  unfold lengthCheck Fits
  split
  · exact ⟨fun h => (nomatch h), fun h => by omega⟩
  · exact ⟨fun _ => by omega, fun _ => rfl⟩

theorem lengthCheck_error_iff {s : State} {len : Nat} {c : Cause} :
    lengthCheck s len = .error c ↔ ¬ Fits s len ∧ c = .addressRange := by
  unfold lengthCheck Fits
  split
  · simp only [Except.error.injEq]
    exact ⟨fun h => ⟨by omega, h.symm⟩, fun h => h.2.symm⟩
  · exact ⟨fun h => (nomatch h), fun h => by omega⟩

theorem checkTargetMode_ok_iff {o : Operand} {u : Unit} : checkTargetMode o = .ok u ↔ o.isTarget = true := by
  unfold checkTargetMode
  cases o.isTarget <;> simp

theorem checkTargetMode_error_iff {o : Operand} {c : Cause} :
    checkTargetMode o = .error c ↔ o.isTarget = false ∧ c = .invalidDestinationMode := by
  unfold checkTargetMode
  cases o.isTarget <;> simp [eq_comm]

theorem designated_eq_some_iff {s : State} {o : Operand} {x : Int} : designated s o = some x ↔ Designates s o x := by
  unfold designated Designates
  cases o.mode <;> simp [eq_comm]

theorem designated_eq_none_iff {s : State} {o : Operand} : designated s o = none ↔ o.mode = .immediate := by
  unfold designated
  cases o.mode <;> simp

theorem isTarget_iff {o : Operand} : o.isTarget = true ↔ o.mode ≠ .immediate := by
  unfold Operand.isTarget
  cases o.mode <;> simp

/-- A target that designates an address is in a legal mode. -/
theorem isTarget_of_targets {s : State} {o : Operand} {d : Nat} (h : Targets s o d) : o.isTarget = true := by
  rw [isTarget_iff]
  rcases h.1 with ⟨h, _⟩ | ⟨h, _⟩ <;> simp [h]

/-- What an operand designates is one integer. -/
theorem Designates.unique {s : State} {o : Operand} {x y : Int} (hx : Designates s o x) (hy : Designates s o y) : x = y := by
  have h1 := designated_eq_some_iff.2 hx
  rw [designated_eq_some_iff.2 hy] at h1
  injection h1 with h1
  exact h1.symm

/-- Address generation and value resolution together give exactly the table's value (R57, R134, R135). -/
theorem readsAs_iff {s : State} {o : Operand} {v : Word} :
    ReadsAs s o v ↔ ∃ ea, effectiveAddress s o = .ok ea ∧ operandValue s o ea = v := by
  unfold ReadsAs effectiveAddress
  cases hd : designated s o with
  | none =>
    have hm := designated_eq_none_iff.1 hd
    constructor
    · rintro (⟨_, rfl⟩ | ⟨x, hx, _⟩)
      · exact ⟨none, rfl, rfl⟩
      · rw [← designated_eq_some_iff, hd] at hx; cases hx
    · rintro ⟨ea, h, rfl⟩
      cases h
      exact .inl ⟨hm, rfl⟩
  | some x =>
    have hx := designated_eq_some_iff.1 hd
    have hm : o.mode ≠ .immediate := fun h => by rw [designated_eq_none_iff.2 h] at hd; cases hd
    constructor
    · rintro (⟨h, _⟩ | ⟨y, hy, hl, rfl⟩)
      · exact absurd h hm
      · cases hx.unique hy
        exact ⟨some x.toNat, by simp [checkAddress_ok_iff.2 ⟨hl, rfl⟩], rfl⟩
    · rintro ⟨ea, h, rfl⟩
      cases hc : checkAddress s x with
      | error c => simp [hc] at h
      | ok a =>
        simp only [hc, Except.ok.injEq] at h
        subst h
        obtain ⟨hl, rfl⟩ := checkAddress_ok_iff.1 hc
        exact .inr ⟨x, hx, hl, rfl⟩

theorem effectiveAddress_error_iff {s : State} {o : Operand} {c : Cause} :
    effectiveAddress s o = .error c ↔ AddressFaults s o c := by
  unfold effectiveAddress AddressFaults
  cases hd : designated s o with
  | none =>
    constructor
    · intro h; cases h
    · rintro ⟨x, hx, _⟩; rw [← designated_eq_some_iff, hd] at hx; cases hx
  | some x =>
    have hx := designated_eq_some_iff.1 hd
    constructor
    · intro h
      cases hc : checkAddress s x with
      | ok a => simp [hc] at h
      | error e =>
        simp only [hc, Except.error.injEq] at h
        subst h
        exact ⟨x, hx, checkAddress_error_iff.1 hc⟩
    · rintro ⟨y, hy, h⟩
      cases hx.unique hy
      simp [checkAddress_error_iff.2 h]

/-- An operand whose address is good has an effective address. -/
theorem effectiveAddress_ok_of_addressOk {s : State} {o : Operand} (h : AddressOk s o) : ∃ ea, effectiveAddress s o = .ok ea := by
  rcases h with h | ⟨x, hx, hl⟩
  · obtain ⟨ea, h, _⟩ := readsAs_iff.1 (show ReadsAs s o o.raw from .inl ⟨h, rfl⟩)
    exact ⟨ea, h⟩
  · obtain ⟨ea, h, _⟩ := readsAs_iff.1 (show ReadsAs s o (s.mem.read x.toNat) from .inr ⟨x, hx, hl, rfl⟩)
    exact ⟨ea, h⟩

theorem targetAddress_ok_iff {s : State} {o : Operand} {d : Nat} : targetAddress s o = .ok d ↔ Targets s o d := by
  unfold targetAddress Targets
  cases hd : designated s o with
  | none =>
    constructor
    · intro h; cases h
    · rintro ⟨h, _⟩; rw [← designated_eq_some_iff, hd] at h; cases h
  | some x =>
    have hx := designated_eq_some_iff.1 hd
    simp only [checkAddress_ok_iff]
    constructor
    · rintro ⟨hl, rfl⟩
      have : ((x.toNat : Nat) : Int) = x := Int.toNat_of_nonneg hl.1
      exact ⟨this ▸ hx, this ▸ hl⟩
    · rintro ⟨h, hl⟩
      cases hx.unique h
      exact ⟨hl, by simp⟩

theorem targetAddress_error_iff {s : State} {o : Operand} {c : Cause} :
    targetAddress s o = .error c ↔ (o.mode = .immediate ∧ c = .invalidDestinationMode) ∨ AddressFaults s o c := by
  unfold targetAddress AddressFaults
  cases hd : designated s o with
  | none =>
    have hm := designated_eq_none_iff.1 hd
    constructor
    · intro h; cases h; exact .inl ⟨hm, rfl⟩
    · rintro (⟨_, rfl⟩ | ⟨x, hx, _⟩)
      · rfl
      · rw [← designated_eq_some_iff, hd] at hx; cases hx
  | some x =>
    have hx := designated_eq_some_iff.1 hd
    simp only [checkAddress_error_iff]
    constructor
    · exact fun h => .inr ⟨x, hx, h⟩
    · rintro (⟨h, _⟩ | ⟨y, hy, h⟩)
      · rw [designated_eq_none_iff.2 h] at hd; cases hd
      · cases hx.unique hy; exact h

/-! ## The four formats -/

theorem resolveR_ok_iff {s : State} {a : Operand} {v : Word} : resolveR s a = .ok v ↔ Fits s 2 ∧ ReadsAs s a v := by
  simp only [resolveR, bind_eq_ok, readsAs_iff, lengthCheck_ok_iff, Except.ok.injEq]
  constructor
  · rintro ⟨_, h1, ea, h2, h3⟩; exact ⟨h1, ea, h2, h3⟩
  · rintro ⟨h1, ea, h2, h3⟩; exact ⟨(), h1, ea, h2, h3⟩

theorem resolveR_error_iff {s : State} {a : Operand} {c : Cause} :
    resolveR s a = .error c ↔ (¬ Fits s 2 ∧ c = .addressRange) ∨ (Fits s 2 ∧ AddressFaults s a c) := by
  simp only [resolveR, bind_eq_error, effectiveAddress_error_iff, lengthCheck_ok_iff, lengthCheck_error_iff]
  constructor
  · rintro (h | ⟨_, h, h' | ⟨_, _, h'⟩⟩)
    · exact .inl h
    · exact .inr ⟨h, h'⟩
    · cases h'
  · rintro (h | ⟨h, h'⟩)
    · exact .inl h
    · exact .inr ⟨(), h, .inl h'⟩

theorem resolveW_ok_iff {s : State} {o : Operand} {d : Nat} : resolveW s o = .ok d ↔ Fits s 2 ∧ Targets s o d := by
  simp only [resolveW, bind_eq_ok, lengthCheck_ok_iff, checkTargetMode_ok_iff, targetAddress_ok_iff]
  constructor
  · rintro ⟨_, _, _, h1, h2⟩; exact ⟨h1, h2⟩
  · rintro ⟨h1, h2⟩; exact ⟨(), isTarget_of_targets h2, (), h1, h2⟩

theorem resolveRR_ok_iff {s : State} {a b : Operand} {x y : Word} :
    resolveRR s a b = .ok (x, y) ↔ Fits s 3 ∧ ReadsAs s a x ∧ ReadsAs s b y := by
  simp only [resolveRR, bind_eq_ok, readsAs_iff, lengthCheck_ok_iff, Except.ok.injEq, Prod.mk.injEq]
  constructor
  · rintro ⟨_, h1, ea, h2, eb, h3, h4, h5⟩; exact ⟨h1, ⟨ea, h2, h4⟩, eb, h3, h5⟩
  · rintro ⟨h1, ⟨ea, h2, h4⟩, eb, h3, h5⟩; exact ⟨(), h1, ea, h2, eb, h3, h4, h5⟩

theorem resolveRRW_ok_iff {s : State} {a b o : Operand} {x y : Word} {d : Nat} :
    resolveRRW s a b o = .ok (x, y, d) ↔ Fits s 4 ∧ ReadsAs s a x ∧ ReadsAs s b y ∧ Targets s o d := by
  simp only [resolveRRW, bind_eq_ok, readsAs_iff, lengthCheck_ok_iff, checkTargetMode_ok_iff, targetAddress_ok_iff,
    Except.ok.injEq, Prod.mk.injEq]
  constructor
  · rintro ⟨_, _, _, h1, ea, h2, eb, h3, d', h4, h5, h6, rfl⟩; exact ⟨h1, ⟨ea, h2, h5⟩, ⟨eb, h3, h6⟩, h4⟩
  · rintro ⟨h1, ⟨ea, h2, h5⟩, ⟨eb, h3, h6⟩, h4⟩
    exact ⟨(), isTarget_of_targets h4, (), h1, ea, h2, eb, h3, d, h4, h5, h6, rfl⟩

/-- The faults that phases 3 to 6 raise (R132). -/
def isOperandCause (c : Cause) : Prop := c = .invalidDestinationMode ∨ c = .addressRange ∨ c = .negativeAddress

theorem AddressFaults.isOperandCause {s : State} {o : Operand} {c : Cause} (h : AddressFaults s o c) : isOperandCause c := by
  obtain ⟨_, _, ⟨_, rfl⟩ | ⟨_, rfl⟩⟩ := h
  · exact .inr (.inr rfl)
  · exact .inr (.inl rfl)

theorem resolveR_error_cause {s : State} {a : Operand} {c : Cause} (h : resolveR s a = .error c) : isOperandCause c := by
  rcases resolveR_error_iff.1 h with ⟨_, rfl⟩ | ⟨_, h⟩
  · exact .inr (.inl rfl)
  · exact h.isOperandCause

theorem targetAddress_error_cause {s : State} {o : Operand} {c : Cause} (h : targetAddress s o = .error c) : isOperandCause c := by
  rcases targetAddress_error_iff.1 h with ⟨_, rfl⟩ | h
  · exact .inl rfl
  · exact h.isOperandCause

theorem resolveW_error_cause {s : State} {o : Operand} {c : Cause} (h : resolveW s o = .error c) : isOperandCause c := by
  simp only [resolveW, bind_eq_error, checkTargetMode_error_iff, lengthCheck_error_iff] at h
  rcases h with ⟨_, rfl⟩ | ⟨_, _, ⟨_, rfl⟩ | ⟨_, _, h⟩⟩
  · exact .inl rfl
  · exact .inr (.inl rfl)
  · exact targetAddress_error_cause h

theorem resolveRR_error_cause {s : State} {a b : Operand} {c : Cause} (h : resolveRR s a b = .error c) : isOperandCause c := by
  simp only [resolveRR, bind_eq_error, effectiveAddress_error_iff, lengthCheck_error_iff] at h
  rcases h with ⟨_, rfl⟩ | ⟨_, _, h | ⟨_, _, h | ⟨_, _, h⟩⟩⟩
  · exact .inr (.inl rfl)
  · exact h.isOperandCause
  · exact h.isOperandCause
  · cases h

theorem resolveRRW_error_cause {s : State} {a b o : Operand} {c : Cause} (h : resolveRRW s a b o = .error c) :
    isOperandCause c := by
  simp only [resolveRRW, bind_eq_error, effectiveAddress_error_iff, lengthCheck_error_iff, checkTargetMode_error_iff] at h
  rcases h with ⟨_, rfl⟩ | ⟨_, _, ⟨_, rfl⟩ | ⟨_, _, h | ⟨_, _, h | ⟨_, _, h | ⟨_, _, h⟩⟩⟩⟩⟩
  · exact .inl rfl
  · exact .inr (.inl rfl)
  · exact h.isOperandCause
  · exact h.isOperandCause
  · exact targetAddress_error_cause h
  · cases h

end Sys2Proof.Machine
end

