-- ==== Sys2Proof/Laws/Decode.lean ====
section
/-! SUPPORT. The decoder and the fetch: what a decoded instruction word holds, and that fetching reads exactly the instruction that
stands at `ip`. -/

namespace Sys2Proof

@[simp] theorem opcodeOfNumber_number (op : Opcode) : opcodeOfNumber op.number = some op := by cases op <;> rfl

/-- The opcode map is one to one (R98). -/
theorem number_of_opcodeOfNumber {n : Nat} {op : Opcode} (h : opcodeOfNumber n = some op) : n = op.number := by
  unfold opcodeOfNumber at h
  split at h <;> cases h <;> rfl

theorem number_lt (op : Opcode) : op.number < 100 := by cases op <;> decide

@[simp] theorem modeOfDigit_digit (m : Mode) : modeOfDigit m.digit = some m := by cases m <;> rfl

theorem digit_of_modeOfDigit {d : Nat} {m : Mode} (h : modeOfDigit d = some m) : d = m.digit := by
  unfold modeOfDigit at h
  split at h <;> cases h <;> rfl

theorem digit_lt (m : Mode) : m.digit < 3 := by cases m <;> decide

/-- The opcodes of R99 that select nothing. -/
theorem opcodeOfNumber_none_iff (n : Nat) : opcodeOfNumber n = none ↔ n ∉ [1, 2, 3, 4, 5, 6, 7, 8, 9, 99] := by
  unfold opcodeOfNumber
  split <;> simp_all

@[simp] theorem assemble_opcode (h : Head) (r1 r2 r3 : Word) : (h.assemble r1 r2 r3).opcode = h.op := by
  cases h with | mk op m1 m2 m3 => cases op <;> rfl

theorem operands_length (i : Instr) : i.operands.length = i.opcode.arity := by cases i <;> rfl

@[simp] theorem assemble_operands_length (h : Head) (r1 r2 r3 : Word) :
    (h.assemble r1 r2 r3).operands.length = h.op.arity := by rw [operands_length, assemble_opcode]

/-- Words beyond the arity are not looked at (R133). -/
theorem assemble_congr (h : Head) {r1 r2 r3 q1 q2 q3 : Word} (h1 : 1 ≤ h.op.arity → r1 = q1) (h2 : 2 ≤ h.op.arity → r2 = q2)
    (h3 : 3 ≤ h.op.arity → r3 = q3) : h.assemble r1 r2 r3 = h.assemble q1 q2 q3 := by
  cases h with | mk op m1 m2 m3 => cases op <;> simp_all [Head.assemble, Opcode.arity]

/-- A decoded instruction word: non-negative, its opcode in the map, each mode read from its digit (R91, R92). -/
theorem decodeHead_ok_iff {w : Word} {h : Head} :
    decodeHead w = .ok h ↔ 0 ≤ w.toInt ∧ opcodeOfNumber (w.toNat % 100) = some h.op ∧
      decodeMode h.op w.toNat 1 = .ok h.m1 ∧ decodeMode h.op w.toNat 2 = .ok h.m2 ∧ decodeMode h.op w.toNat 3 = .ok h.m3 := by
  unfold decodeHead
  split
  · exact ⟨fun e => (nomatch e), fun e => by omega⟩
  · cases ho : opcodeOfNumber (w.toNat % 100) with
    | none => simp
    | some op =>
      simp only [Machine.bind_eq_ok, Except.ok.injEq, Option.some.injEq]
      constructor
      · rintro ⟨m1, h1, m2, h2, m3, h3, rfl⟩
        exact ⟨by omega, rfl, h1, h2, h3⟩
      · rintro ⟨_, rfl, h1, h2, h3⟩
        exact ⟨_, h1, _, h2, _, h3, rfl⟩

theorem decodeMode_target {op : Opcode} {v k : Nat} {m : Mode} (h : decodeMode op v k = .ok m) (hk : op.writeTarget = some k) :
    m ≠ .immediate := by
  unfold decodeMode at h
  split at h
  · cases h; simp
  · split at h
    · cases h
    · split at h <;> cases h
      rename_i hn
      exact fun e => hn ⟨hk, e⟩

/-- What the decoder accepts is well formed (R101). -/
theorem assemble_wellFormed {w : Word} {h : Head} (hw : decodeHead w = .ok h) (r1 r2 r3 : Word) :
    (h.assemble r1 r2 r3).wellFormed = true := by
  obtain ⟨_, _, h1, h2, h3⟩ := decodeHead_ok_iff.1 hw
  have t1 := decodeMode_target h1
  have t3 := decodeMode_target h3
  cases h with | mk op m1 m2 m3 =>
    cases op <;>
      first
      | rfl
      | exact Machine.isTarget_iff.2 (t1 rfl)
      | exact Machine.isTarget_iff.2 (t3 rfl)

theorem decode_ok_iff {ws rest : List Word} {i : Instr} :
    decode ws = .ok (i, rest) ↔ ∃ h, decodeHead (ws.getD 0 0) = .ok h ∧
      i = h.assemble (ws.getD 1 0) (ws.getD 2 0) (ws.getD 3 0) ∧ rest = ws.drop (1 + h.op.arity) := by
  unfold decode
  cases decodeHead (ws.getD 0 0) with
  | error e => exact ⟨fun h => (nomatch h), fun ⟨_, h, _⟩ => (nomatch h)⟩
  | ok h =>
    constructor
    · intro e
      cases e
      exact ⟨h, rfl, rfl, rfl⟩
    · rintro ⟨_, e, rfl, rfl⟩
      cases e
      rfl

namespace Machine

theorem fetchHead_ok_iff {s : State} {h : Head} :
    fetchHead s = .ok h ↔ s.ip ≤ s.config.addrMax.val ∧ decodeHead (s.mem.read s.ip) = .ok h := by
  unfold fetchHead
  cases hc : checkAddress s (s.ip : Int) with
  | error c =>
    have := checkAddress_error_iff.1 hc
    exact ⟨fun e => (nomatch e), fun e => by omega⟩
  | ok a =>
    obtain ⟨⟨_, hl⟩, rfl⟩ := checkAddress_ok_iff.1 hc
    simp only [Int.toNat_natCast]
    cases decodeHead (s.mem.read s.ip) with
    | error e => exact ⟨fun e => (nomatch e), fun e => (nomatch e.2)⟩
    | ok g => exact ⟨fun e => by cases e; exact ⟨by omega, rfl⟩, fun e => by cases e.2; rfl⟩

theorem fetchOperand_ok_iff {s : State} {n k : Nat} {w : Word} :
    fetchOperand s n k = .ok w ↔
      (n < k ∧ w = 0) ∨ (k ≤ n ∧ s.ip + k ≤ s.config.addrMax.val ∧ w = s.mem.read (s.ip + k)) := by
  unfold fetchOperand
  split
  · simp only [Except.ok.injEq]
    exact ⟨fun e => .inl ⟨by omega, e.symm⟩, fun e => by rcases e with ⟨_, e⟩ | ⟨e, _⟩ <;> [exact e.symm; omega]⟩
  · cases hc : checkAddress s ((s.ip : Int) + k) with
    | error c =>
      have := checkAddress_error_iff.1 hc
      exact ⟨fun e => (nomatch e), fun e => by omega⟩
    | ok a =>
      obtain ⟨⟨_, hl⟩, rfl⟩ := checkAddress_ok_iff.1 hc
      have ha : ((s.ip : Int) + k).toNat = s.ip + k := by omega
      simp only [Except.ok.injEq, ha]
      exact ⟨fun e => .inr ⟨by omega, by omega, e.symm⟩, fun e => by rcases e with ⟨e, _⟩ | ⟨_, _, e⟩ <;> [omega; exact e.symm]⟩

/-- An operand word that is fetched fails only by AddressRange (R132, phase 5). -/
theorem fetchOperand_error_iff {s : State} {n k : Nat} {c : Cause} :
    fetchOperand s n k = .error c ↔ k ≤ n ∧ s.config.addrMax.val < s.ip + k ∧ c = .addressRange := by
  unfold fetchOperand
  split
  · exact ⟨fun e => (nomatch e), fun e => by omega⟩
  · cases hc : checkAddress s ((s.ip : Int) + k) with
    | ok a =>
      obtain ⟨⟨_, hl⟩, _⟩ := checkAddress_ok_iff.1 hc
      exact ⟨fun e => (nomatch e), fun e => by omega⟩
    | error d =>
      simp only [Except.error.injEq]
      rcases checkAddress_error_iff.1 hc with ⟨h, _⟩ | ⟨h, rfl⟩
      · omega
      · exact ⟨fun e => ⟨by omega, by omega, e.symm⟩, fun e => e.2.2.symm⟩

theorem arity_le_three (op : Opcode) : op.arity ≤ 3 := by cases op <;> decide

/-- Fetching answers exactly the instruction that stands at `ip`. -/
theorem fetchInstr_ok_iff {s : State} {i : Instr} : fetchInstr s = .ok i ↔ NextInstr s i := by
  unfold fetchInstr NextInstr
  simp only [bind_eq_ok, fetchHead_ok_iff, fetchOperand_ok_iff, decode_ok_iff, wordsAtIp, Except.ok.injEq]
  constructor
  · rintro ⟨h, ⟨ha, hd⟩, r1, h1, r2, h2, r3, h3, rfl⟩
    refine ⟨⟨_, h, hd, ?_, rfl⟩, ?_⟩
    · apply assemble_congr
      · intro hn; rcases h1 with h1 | h1 <;> [omega; exact h1.2.2]
      · intro hn; rcases h2 with h2 | h2 <;> [omega; exact h2.2.2]
      · intro hn; rcases h3 with h3 | h3 <;> [omega; exact h3.2.2]
    · rw [assemble_operands_length]
      have := arity_le_three h.op
      omega
  · rintro ⟨⟨_, h, hd, rfl, rfl⟩, hl⟩
    rw [assemble_operands_length] at hl
    have ex : ∀ k, ∃ w, (h.op.arity < k ∧ w = 0) ∨
        (k ≤ h.op.arity ∧ s.ip + k ≤ s.config.addrMax.val ∧ w = s.mem.read (s.ip + k)) := by
      intro k
      by_cases hk : h.op.arity < k
      · exact ⟨0, .inl ⟨hk, rfl⟩⟩
      · exact ⟨_, .inr ⟨by omega, by omega, rfl⟩⟩
    obtain ⟨r1, h1⟩ := ex 1
    obtain ⟨r2, h2⟩ := ex 2
    obtain ⟨r3, h3⟩ := ex 3
    refine ⟨h, ⟨by omega, hd⟩, r1, h1, r2, h2, r3, h3, ?_⟩
    apply assemble_congr
    · intro hn; rcases h1 with h1 | h1 <;> [omega; exact h1.2.2]
    · intro hn; rcases h2 with h2 | h2 <;> [omega; exact h2.2.2]
    · intro hn; rcases h3 with h3 | h3 <;> [omega; exact h3.2.2]

/-- The instruction at `ip` is one. -/
theorem NextInstr.unique {s : State} {i j : Instr} (hi : NextInstr s i) (hj : NextInstr s j) : i = j := by
  have h := fetchInstr_ok_iff.2 hi
  rw [fetchInstr_ok_iff.2 hj] at h
  cases h
  rfl

/-- The instruction at `ip` is well formed. -/
theorem NextInstr.wellFormed {s : State} {i : Instr} (hi : NextInstr s i) : i.wellFormed = true := by
  obtain ⟨⟨_, h⟩, _⟩ := hi
  obtain ⟨_, hd, rfl, _⟩ := decode_ok_iff.1 h
  exact assemble_wellFormed hd _ _ _

theorem stepGate_none_iff {s : State} : stepGate s = none ↔ Enabled s := by
  unfold stepGate Enabled
  cases s.started <;> cases s.runState <;> simp

/-- The inversion of `step` where it answers a next state: the core is enabled, and either a fetch or decode fault is taken
or the instruction at `ip` is executed. -/
theorem step_next_iff {s t : State} :
    step s = .next t ↔ Enabled s ∧
      ((∃ c, fetchInstr s = .error c ∧ t = s.takeFault c) ∨ ∃ i, NextInstr s i ∧ exec i s = .next t) := by
  unfold step
  cases hg : stepGate s with
  | some f =>
    have : ¬ Enabled s := fun h => by rw [stepGate_none_iff.2 h] at hg; cases hg
    exact ⟨fun e => (nomatch e), fun e => absurd e.1 this⟩
  | none =>
    have he := stepGate_none_iff.1 hg
    cases hf : fetchInstr s with
    | error c =>
      constructor
      · intro e; cases e; exact ⟨he, .inl ⟨c, rfl, rfl⟩⟩
      · rintro ⟨_, ⟨_, e, rfl⟩ | ⟨i, hi, _⟩⟩
        · cases e; rfl
        · rw [fetchInstr_ok_iff.2 hi] at hf; cases hf
    | ok i =>
      constructor
      · exact fun e => ⟨he, .inr ⟨i, fetchInstr_ok_iff.1 hf, e⟩⟩
      · rintro ⟨_, ⟨_, e, _⟩ | ⟨j, hj, e⟩⟩
        · cases e
        · rw [fetchInstr_ok_iff.2 hj] at hf; cases hf; exact e

/-- A fetch or decode fault is one of phases 1, 2, 3 and 5 (R132). -/
theorem fetchInstr_error_cause {s : State} {c : Cause} (h : fetchInstr s = .error c) :
    c = .unknownOpcode ∨ c = .unknownAddressingMode ∨ c = .invalidDestinationMode ∨ c = .addressRange := by
  simp only [fetchInstr, bind_eq_error, fetchOperand_error_iff] at h
  rcases h with h | ⟨_, _, ⟨_, _, rfl⟩ | ⟨_, _, ⟨_, _, rfl⟩ | ⟨_, _, ⟨_, _, rfl⟩ | ⟨_, _, h⟩⟩⟩⟩
  · unfold fetchHead at h
    split at h
    · rename_i hc
      cases h
      rcases checkAddress_error_iff.1 hc with ⟨hn, _⟩ | ⟨_, rfl⟩
      · omega
      · simp
    · split at h
      · rename_i e _
        cases h
        cases e <;> simp [Cause.ofDecodeError]
      · cases h
  · simp
  · simp
  · simp
  · cases h

end Machine

end Sys2Proof
end

