-- ==== Sys2Proof/Laws/State.lean ====
section
/-! SUPPORT. What each named operation over State does to each field: one lemma per field per operation, true by `rfl`, so that no
proof unfolds a record update. -/

namespace Sys2Proof.Machine

/-! ### store -/

@[simp] theorem State.store_config (s : State) (a : Nat) (v : Word) : (s.store a v).config = s.config := rfl
@[simp] theorem State.store_mem (s : State) (a : Nat) (v : Word) : (s.store a v).mem = s.mem.write a v := rfl
@[simp] theorem State.store_memLen (s : State) (a : Nat) (v : Word) : (s.store a v).memLen = if s.memLen ≤ a then a + 1 else s.memLen := rfl
@[simp] theorem State.store_ip (s : State) (a : Nat) (v : Word) : (s.store a v).ip = s.ip := rfl
@[simp] theorem State.store_rb (s : State) (a : Nat) (v : Word) : (s.store a v).rb = s.rb := rfl
@[simp] theorem State.store_runState (s : State) (a : Nat) (v : Word) : (s.store a v).runState = s.runState := rfl
@[simp] theorem State.store_faultCause (s : State) (a : Nat) (v : Word) : (s.store a v).faultCause = s.faultCause := rfl
@[simp] theorem State.store_inQueue (s : State) (a : Nat) (v : Word) : (s.store a v).inQueue = s.inQueue := rfl
@[simp] theorem State.store_inClosed (s : State) (a : Nat) (v : Word) : (s.store a v).inClosed = s.inClosed := rfl
@[simp] theorem State.store_outPorts (s : State) (a : Nat) (v : Word) : (s.store a v).outPorts = s.outPorts := rfl
@[simp] theorem State.store_started (s : State) (a : Nat) (v : Word) : (s.store a v).started = s.started := rfl
@[simp] theorem State.store_inShut (s : State) (a : Nat) (v : Word) : (s.store a v).inShut = s.inShut := rfl
@[simp] theorem State.store_outShut (s : State) (a : Nat) (v : Word) : (s.store a v).outShut = s.outShut := rfl

/-! ### setIp -/

@[simp] theorem State.setIp_config (s : State) (p : Nat) : (s.setIp p).config = s.config := rfl
@[simp] theorem State.setIp_mem (s : State) (p : Nat) : (s.setIp p).mem = s.mem := rfl
@[simp] theorem State.setIp_memLen (s : State) (p : Nat) : (s.setIp p).memLen = s.memLen := rfl
@[simp] theorem State.setIp_ip (s : State) (p : Nat) : (s.setIp p).ip = p := rfl
@[simp] theorem State.setIp_rb (s : State) (p : Nat) : (s.setIp p).rb = s.rb := rfl
@[simp] theorem State.setIp_runState (s : State) (p : Nat) : (s.setIp p).runState = s.runState := rfl
@[simp] theorem State.setIp_faultCause (s : State) (p : Nat) : (s.setIp p).faultCause = s.faultCause := rfl
@[simp] theorem State.setIp_inQueue (s : State) (p : Nat) : (s.setIp p).inQueue = s.inQueue := rfl
@[simp] theorem State.setIp_inClosed (s : State) (p : Nat) : (s.setIp p).inClosed = s.inClosed := rfl
@[simp] theorem State.setIp_outPorts (s : State) (p : Nat) : (s.setIp p).outPorts = s.outPorts := rfl
@[simp] theorem State.setIp_started (s : State) (p : Nat) : (s.setIp p).started = s.started := rfl
@[simp] theorem State.setIp_inShut (s : State) (p : Nat) : (s.setIp p).inShut = s.inShut := rfl
@[simp] theorem State.setIp_outShut (s : State) (p : Nat) : (s.setIp p).outShut = s.outShut := rfl

/-! ### advance -/

@[simp] theorem State.advance_config (s : State) (len : Nat) : (s.advance len).config = s.config := rfl
@[simp] theorem State.advance_mem (s : State) (len : Nat) : (s.advance len).mem = s.mem := rfl
@[simp] theorem State.advance_memLen (s : State) (len : Nat) : (s.advance len).memLen = s.memLen := rfl
@[simp] theorem State.advance_ip (s : State) (len : Nat) : (s.advance len).ip = s.ip + len := rfl
@[simp] theorem State.advance_rb (s : State) (len : Nat) : (s.advance len).rb = s.rb := rfl
@[simp] theorem State.advance_runState (s : State) (len : Nat) : (s.advance len).runState = s.runState := rfl
@[simp] theorem State.advance_faultCause (s : State) (len : Nat) : (s.advance len).faultCause = s.faultCause := rfl
@[simp] theorem State.advance_inQueue (s : State) (len : Nat) : (s.advance len).inQueue = s.inQueue := rfl
@[simp] theorem State.advance_inClosed (s : State) (len : Nat) : (s.advance len).inClosed = s.inClosed := rfl
@[simp] theorem State.advance_outPorts (s : State) (len : Nat) : (s.advance len).outPorts = s.outPorts := rfl
@[simp] theorem State.advance_started (s : State) (len : Nat) : (s.advance len).started = s.started := rfl
@[simp] theorem State.advance_inShut (s : State) (len : Nat) : (s.advance len).inShut = s.inShut := rfl
@[simp] theorem State.advance_outShut (s : State) (len : Nat) : (s.advance len).outShut = s.outShut := rfl

/-! ### setRb -/

@[simp] theorem State.setRb_config (s : State) (v : Word) : (s.setRb v).config = s.config := rfl
@[simp] theorem State.setRb_mem (s : State) (v : Word) : (s.setRb v).mem = s.mem := rfl
@[simp] theorem State.setRb_memLen (s : State) (v : Word) : (s.setRb v).memLen = s.memLen := rfl
@[simp] theorem State.setRb_ip (s : State) (v : Word) : (s.setRb v).ip = s.ip := rfl
@[simp] theorem State.setRb_rb (s : State) (v : Word) : (s.setRb v).rb = v := rfl
@[simp] theorem State.setRb_runState (s : State) (v : Word) : (s.setRb v).runState = s.runState := rfl
@[simp] theorem State.setRb_faultCause (s : State) (v : Word) : (s.setRb v).faultCause = s.faultCause := rfl
@[simp] theorem State.setRb_inQueue (s : State) (v : Word) : (s.setRb v).inQueue = s.inQueue := rfl
@[simp] theorem State.setRb_inClosed (s : State) (v : Word) : (s.setRb v).inClosed = s.inClosed := rfl
@[simp] theorem State.setRb_outPorts (s : State) (v : Word) : (s.setRb v).outPorts = s.outPorts := rfl
@[simp] theorem State.setRb_started (s : State) (v : Word) : (s.setRb v).started = s.started := rfl
@[simp] theorem State.setRb_inShut (s : State) (v : Word) : (s.setRb v).inShut = s.inShut := rfl
@[simp] theorem State.setRb_outShut (s : State) (v : Word) : (s.setRb v).outShut = s.outShut := rfl

/-! ### setHalted -/

@[simp] theorem State.setHalted_config (s : State) : (s.setHalted).config = s.config := rfl
@[simp] theorem State.setHalted_mem (s : State) : (s.setHalted).mem = s.mem := rfl
@[simp] theorem State.setHalted_memLen (s : State) : (s.setHalted).memLen = s.memLen := rfl
@[simp] theorem State.setHalted_ip (s : State) : (s.setHalted).ip = s.ip := rfl
@[simp] theorem State.setHalted_rb (s : State) : (s.setHalted).rb = s.rb := rfl
@[simp] theorem State.setHalted_runState (s : State) : (s.setHalted).runState = .halted := rfl
@[simp] theorem State.setHalted_faultCause (s : State) : (s.setHalted).faultCause = s.faultCause := rfl
@[simp] theorem State.setHalted_inQueue (s : State) : (s.setHalted).inQueue = s.inQueue := rfl
@[simp] theorem State.setHalted_inClosed (s : State) : (s.setHalted).inClosed = s.inClosed := rfl
@[simp] theorem State.setHalted_outPorts (s : State) : (s.setHalted).outPorts = s.outPorts := rfl
@[simp] theorem State.setHalted_started (s : State) : (s.setHalted).started = s.started := rfl
@[simp] theorem State.setHalted_inShut (s : State) : (s.setHalted).inShut = s.inShut := rfl
@[simp] theorem State.setHalted_outShut (s : State) : (s.setHalted).outShut = s.outShut := rfl

/-! ### setInQueue -/

@[simp] theorem State.setInQueue_config (s : State) (q : List Word) : (s.setInQueue q).config = s.config := rfl
@[simp] theorem State.setInQueue_mem (s : State) (q : List Word) : (s.setInQueue q).mem = s.mem := rfl
@[simp] theorem State.setInQueue_memLen (s : State) (q : List Word) : (s.setInQueue q).memLen = s.memLen := rfl
@[simp] theorem State.setInQueue_ip (s : State) (q : List Word) : (s.setInQueue q).ip = s.ip := rfl
@[simp] theorem State.setInQueue_rb (s : State) (q : List Word) : (s.setInQueue q).rb = s.rb := rfl
@[simp] theorem State.setInQueue_runState (s : State) (q : List Word) : (s.setInQueue q).runState = s.runState := rfl
@[simp] theorem State.setInQueue_faultCause (s : State) (q : List Word) : (s.setInQueue q).faultCause = s.faultCause := rfl
@[simp] theorem State.setInQueue_inQueue (s : State) (q : List Word) : (s.setInQueue q).inQueue = q := rfl
@[simp] theorem State.setInQueue_inClosed (s : State) (q : List Word) : (s.setInQueue q).inClosed = s.inClosed := rfl
@[simp] theorem State.setInQueue_outPorts (s : State) (q : List Word) : (s.setInQueue q).outPorts = s.outPorts := rfl
@[simp] theorem State.setInQueue_started (s : State) (q : List Word) : (s.setInQueue q).started = s.started := rfl
@[simp] theorem State.setInQueue_inShut (s : State) (q : List Word) : (s.setInQueue q).inShut = s.inShut := rfl
@[simp] theorem State.setInQueue_outShut (s : State) (q : List Word) : (s.setInQueue q).outShut = s.outShut := rfl

/-! ### setOutPorts -/

@[simp] theorem State.setOutPorts_config (s : State) (ps : List OutPort) : (s.setOutPorts ps).config = s.config := rfl
@[simp] theorem State.setOutPorts_mem (s : State) (ps : List OutPort) : (s.setOutPorts ps).mem = s.mem := rfl
@[simp] theorem State.setOutPorts_memLen (s : State) (ps : List OutPort) : (s.setOutPorts ps).memLen = s.memLen := rfl
@[simp] theorem State.setOutPorts_ip (s : State) (ps : List OutPort) : (s.setOutPorts ps).ip = s.ip := rfl
@[simp] theorem State.setOutPorts_rb (s : State) (ps : List OutPort) : (s.setOutPorts ps).rb = s.rb := rfl
@[simp] theorem State.setOutPorts_runState (s : State) (ps : List OutPort) : (s.setOutPorts ps).runState = s.runState := rfl
@[simp] theorem State.setOutPorts_faultCause (s : State) (ps : List OutPort) : (s.setOutPorts ps).faultCause = s.faultCause := rfl
@[simp] theorem State.setOutPorts_inQueue (s : State) (ps : List OutPort) : (s.setOutPorts ps).inQueue = s.inQueue := rfl
@[simp] theorem State.setOutPorts_inClosed (s : State) (ps : List OutPort) : (s.setOutPorts ps).inClosed = s.inClosed := rfl
@[simp] theorem State.setOutPorts_outPorts (s : State) (ps : List OutPort) : (s.setOutPorts ps).outPorts = ps := rfl
@[simp] theorem State.setOutPorts_started (s : State) (ps : List OutPort) : (s.setOutPorts ps).started = s.started := rfl
@[simp] theorem State.setOutPorts_inShut (s : State) (ps : List OutPort) : (s.setOutPorts ps).inShut = s.inShut := rfl
@[simp] theorem State.setOutPorts_outShut (s : State) (ps : List OutPort) : (s.setOutPorts ps).outShut = s.outShut := rfl

/-! ### takeFault -/

@[simp] theorem State.takeFault_config (s : State) (c : Cause) : (s.takeFault c).config = s.config := rfl
@[simp] theorem State.takeFault_mem (s : State) (c : Cause) : (s.takeFault c).mem = s.mem := rfl
@[simp] theorem State.takeFault_memLen (s : State) (c : Cause) : (s.takeFault c).memLen = s.memLen := rfl
@[simp] theorem State.takeFault_ip (s : State) (c : Cause) : (s.takeFault c).ip = s.ip := rfl
@[simp] theorem State.takeFault_rb (s : State) (c : Cause) : (s.takeFault c).rb = s.rb := rfl
@[simp] theorem State.takeFault_runState (s : State) (c : Cause) : (s.takeFault c).runState = .faulted := rfl
@[simp] theorem State.takeFault_faultCause (s : State) (c : Cause) : (s.takeFault c).faultCause = some c := rfl
@[simp] theorem State.takeFault_inQueue (s : State) (c : Cause) : (s.takeFault c).inQueue = s.inQueue := rfl
@[simp] theorem State.takeFault_inClosed (s : State) (c : Cause) : (s.takeFault c).inClosed = s.inClosed := rfl
@[simp] theorem State.takeFault_outPorts (s : State) (c : Cause) : (s.takeFault c).outPorts = s.outPorts := rfl
@[simp] theorem State.takeFault_started (s : State) (c : Cause) : (s.takeFault c).started = s.started := rfl
@[simp] theorem State.takeFault_inShut (s : State) (c : Cause) : (s.takeFault c).inShut = s.inShut := rfl
@[simp] theorem State.takeFault_outShut (s : State) (c : Cause) : (s.takeFault c).outShut = s.outShut := rfl

/-! ### load -/

@[simp] theorem State.load_config (s : State) (image : List Word) : (s.load image).config = s.config := rfl
@[simp] theorem State.load_mem (s : State) (image : List Word) : (s.load image).mem = Memory.ofImageAt 0 image := rfl
@[simp] theorem State.load_memLen (s : State) (image : List Word) : (s.load image).memLen = image.length := rfl
@[simp] theorem State.load_ip (s : State) (image : List Word) : (s.load image).ip = s.ip := rfl
@[simp] theorem State.load_rb (s : State) (image : List Word) : (s.load image).rb = s.rb := rfl
@[simp] theorem State.load_runState (s : State) (image : List Word) : (s.load image).runState = s.runState := rfl
@[simp] theorem State.load_faultCause (s : State) (image : List Word) : (s.load image).faultCause = s.faultCause := rfl
@[simp] theorem State.load_inQueue (s : State) (image : List Word) : (s.load image).inQueue = s.inQueue := rfl
@[simp] theorem State.load_inClosed (s : State) (image : List Word) : (s.load image).inClosed = s.inClosed := rfl
@[simp] theorem State.load_outPorts (s : State) (image : List Word) : (s.load image).outPorts = s.outPorts := rfl
@[simp] theorem State.load_started (s : State) (image : List Word) : (s.load image).started = s.started := rfl
@[simp] theorem State.load_inShut (s : State) (image : List Word) : (s.load image).inShut = s.inShut := rfl
@[simp] theorem State.load_outShut (s : State) (image : List Word) : (s.load image).outShut = s.outShut := rfl

/-! ### fixEndpoints -/

@[simp] theorem State.fixEndpoints_config (s : State) (n : Nat) (b : Bool) : (s.fixEndpoints n b).config = { s.config with inAttached := b } := rfl
@[simp] theorem State.fixEndpoints_mem (s : State) (n : Nat) (b : Bool) : (s.fixEndpoints n b).mem = s.mem := rfl
@[simp] theorem State.fixEndpoints_memLen (s : State) (n : Nat) (b : Bool) : (s.fixEndpoints n b).memLen = s.memLen := rfl
@[simp] theorem State.fixEndpoints_ip (s : State) (n : Nat) (b : Bool) : (s.fixEndpoints n b).ip = s.ip := rfl
@[simp] theorem State.fixEndpoints_rb (s : State) (n : Nat) (b : Bool) : (s.fixEndpoints n b).rb = s.rb := rfl
@[simp] theorem State.fixEndpoints_runState (s : State) (n : Nat) (b : Bool) : (s.fixEndpoints n b).runState = s.runState := rfl
@[simp] theorem State.fixEndpoints_faultCause (s : State) (n : Nat) (b : Bool) : (s.fixEndpoints n b).faultCause = s.faultCause := rfl
@[simp] theorem State.fixEndpoints_inQueue (s : State) (n : Nat) (b : Bool) : (s.fixEndpoints n b).inQueue = [] := rfl
@[simp] theorem State.fixEndpoints_inClosed (s : State) (n : Nat) (b : Bool) : (s.fixEndpoints n b).inClosed = (s.inShut || !b) := rfl
@[simp] theorem State.fixEndpoints_outPorts (s : State) (n : Nat) (b : Bool) : (s.fixEndpoints n b).outPorts = emptyPorts n s.outShut := rfl
@[simp] theorem State.fixEndpoints_started (s : State) (n : Nat) (b : Bool) : (s.fixEndpoints n b).started = s.started := rfl
@[simp] theorem State.fixEndpoints_inShut (s : State) (n : Nat) (b : Bool) : (s.fixEndpoints n b).inShut = s.inShut := rfl
@[simp] theorem State.fixEndpoints_outShut (s : State) (n : Nat) (b : Bool) : (s.fixEndpoints n b).outShut = s.outShut := rfl

/-! ### start -/

@[simp] theorem State.start_config (s : State) : (s.start).config = s.config := rfl
@[simp] theorem State.start_mem (s : State) : (s.start).mem = s.mem := rfl
@[simp] theorem State.start_memLen (s : State) : (s.start).memLen = s.memLen := rfl
@[simp] theorem State.start_ip (s : State) : (s.start).ip = s.ip := rfl
@[simp] theorem State.start_rb (s : State) : (s.start).rb = s.rb := rfl
@[simp] theorem State.start_runState (s : State) : (s.start).runState = s.runState := rfl
@[simp] theorem State.start_faultCause (s : State) : (s.start).faultCause = s.faultCause := rfl
@[simp] theorem State.start_inQueue (s : State) : (s.start).inQueue = s.inQueue := rfl
@[simp] theorem State.start_inClosed (s : State) : (s.start).inClosed = s.inClosed := rfl
@[simp] theorem State.start_outPorts (s : State) : (s.start).outPorts = s.outPorts := rfl
@[simp] theorem State.start_started (s : State) : (s.start).started = true := rfl
@[simp] theorem State.start_inShut (s : State) : (s.start).inShut = s.inShut := rfl
@[simp] theorem State.start_outShut (s : State) : (s.start).outShut = s.outShut := rfl

/-! ### closeIn -/

@[simp] theorem State.closeIn_config (s : State) : (s.closeIn).config = s.config := rfl
@[simp] theorem State.closeIn_mem (s : State) : (s.closeIn).mem = s.mem := rfl
@[simp] theorem State.closeIn_memLen (s : State) : (s.closeIn).memLen = s.memLen := rfl
@[simp] theorem State.closeIn_ip (s : State) : (s.closeIn).ip = s.ip := rfl
@[simp] theorem State.closeIn_rb (s : State) : (s.closeIn).rb = s.rb := rfl
@[simp] theorem State.closeIn_runState (s : State) : (s.closeIn).runState = s.runState := rfl
@[simp] theorem State.closeIn_faultCause (s : State) : (s.closeIn).faultCause = s.faultCause := rfl
@[simp] theorem State.closeIn_inQueue (s : State) : (s.closeIn).inQueue = s.inQueue := rfl
@[simp] theorem State.closeIn_inClosed (s : State) : (s.closeIn).inClosed = true := rfl
@[simp] theorem State.closeIn_outPorts (s : State) : (s.closeIn).outPorts = s.outPorts := rfl
@[simp] theorem State.closeIn_started (s : State) : (s.closeIn).started = s.started := rfl
@[simp] theorem State.closeIn_inShut (s : State) : (s.closeIn).inShut = true := rfl
@[simp] theorem State.closeIn_outShut (s : State) : (s.closeIn).outShut = s.outShut := rfl

/-! ### closeOut -/

@[simp] theorem State.closeOut_config (s : State) (j : Nat) (p : OutPort) : (s.closeOut j p).config = s.config := rfl
@[simp] theorem State.closeOut_mem (s : State) (j : Nat) (p : OutPort) : (s.closeOut j p).mem = s.mem := rfl
@[simp] theorem State.closeOut_memLen (s : State) (j : Nat) (p : OutPort) : (s.closeOut j p).memLen = s.memLen := rfl
@[simp] theorem State.closeOut_ip (s : State) (j : Nat) (p : OutPort) : (s.closeOut j p).ip = s.ip := rfl
@[simp] theorem State.closeOut_rb (s : State) (j : Nat) (p : OutPort) : (s.closeOut j p).rb = s.rb := rfl
@[simp] theorem State.closeOut_runState (s : State) (j : Nat) (p : OutPort) : (s.closeOut j p).runState = s.runState := rfl
@[simp] theorem State.closeOut_faultCause (s : State) (j : Nat) (p : OutPort) : (s.closeOut j p).faultCause = s.faultCause := rfl
@[simp] theorem State.closeOut_inQueue (s : State) (j : Nat) (p : OutPort) : (s.closeOut j p).inQueue = s.inQueue := rfl
@[simp] theorem State.closeOut_inClosed (s : State) (j : Nat) (p : OutPort) : (s.closeOut j p).inClosed = s.inClosed := rfl
@[simp] theorem State.closeOut_outPorts (s : State) (j : Nat) (p : OutPort) : (s.closeOut j p).outPorts = s.outPorts.set j { p with closed := true } := rfl
@[simp] theorem State.closeOut_started (s : State) (j : Nat) (p : OutPort) : (s.closeOut j p).started = s.started := rfl
@[simp] theorem State.closeOut_inShut (s : State) (j : Nat) (p : OutPort) : (s.closeOut j p).inShut = s.inShut := rfl
@[simp] theorem State.closeOut_outShut (s : State) (j : Nat) (p : OutPort) : (s.closeOut j p).outShut = s.outShut.insert j := rfl

/-! ### envReset -/

@[simp] theorem State.envReset_config (s : State) : (s.envReset).config = s.config := rfl
@[simp] theorem State.envReset_mem (s : State) : (s.envReset).mem = [] := rfl
@[simp] theorem State.envReset_memLen (s : State) : (s.envReset).memLen = 0 := rfl
@[simp] theorem State.envReset_ip (s : State) : (s.envReset).ip = 0 := rfl
@[simp] theorem State.envReset_rb (s : State) : (s.envReset).rb = 0 := rfl
@[simp] theorem State.envReset_runState (s : State) : (s.envReset).runState = .running := rfl
@[simp] theorem State.envReset_faultCause (s : State) : (s.envReset).faultCause = none := rfl
@[simp] theorem State.envReset_inQueue (s : State) : (s.envReset).inQueue = [] := rfl
@[simp] theorem State.envReset_inClosed (s : State) : (s.envReset).inClosed = !s.config.inAttached := rfl
@[simp] theorem State.envReset_outPorts (s : State) : (s.envReset).outPorts = List.replicate s.nOut { queue := [], closed := false } := rfl
@[simp] theorem State.envReset_started (s : State) : (s.envReset).started = false := rfl
@[simp] theorem State.envReset_inShut (s : State) : (s.envReset).inShut = false := rfl
@[simp] theorem State.envReset_outShut (s : State) : (s.envReset).outShut = [] := rfl

end Sys2Proof.Machine
end

