-- ==== Sys2Proof/Laws/Environment.lean ====
section
/-! SUPPORT. The environment's moves, inverted, and the ports that fixing the endpoints leaves. -/

namespace Sys2Proof.Machine

/-- Everything a move of the environment can do when it answers a next state (R270). -/
inductive EnvEffect (s : State) : EnvMove → State → Prop where
  | reset : EnvEffect s .reset s.envReset
  | load (image : List Word) (hs : s.started = false) (hl : image.length ≤ s.config.memCapacity) :
      EnvEffect s (.load image) (s.load image)
  | fixEndpoints (n : Nat) (b : Bool) (hs : s.started = false) (hq : s.inQueue = []) (hp : ∀ p ∈ s.outPorts, p.queue = []) :
      EnvEffect s (.fixEndpoints n b) (s.fixEndpoints n b)
  | start : EnvEffect s .start s.start
  | appendIn (v : Word) (hc : s.inClosed = false) : EnvEffect s (.appendIn v) (s.setInQueue (s.inQueue ++ [v]))
  | closeIn : EnvEffect s .closeIn s.closeIn
  | takeOut (j : Nat) (p : OutPort) (v : Word) (rest : List Word) (hp : s.outPorts[j]? = some p) (hq : p.queue = v :: rest) :
      EnvEffect s (.takeOut j) (s.setOutPorts (s.outPorts.set j { p with queue := rest }))
  | closeOut (j : Nat) (p : OutPort) (hp : s.outPorts[j]? = some p) : EnvEffect s (.closeOut j) (s.closeOut j p)

theorem portsEmpty_iff {s : State} : s.portsEmpty = true ↔ s.inQueue = [] ∧ ∀ p ∈ s.outPorts, p.queue = [] := by
  simp [State.portsEmpty]

/-- The inversion of `envStep`. -/
theorem envStep_effect {m : EnvMove} {s t : State} (h : envStep m s = .next t) : EnvEffect s m t := by
  cases m <;> simp only [envStep] at h
  case reset => cases h; exact .reset
  case load image =>
    split at h
    · cases h
    · rename_i hs
      split at h <;> cases h
      rename_i hl
      exact .load image (by simpa using hs) (by omega)
  case fixEndpoints n b =>
    split at h
    · cases h
    · rename_i hs
      split at h <;> cases h
      rename_i he
      exact .fixEndpoints n b (by simpa using hs) (portsEmpty_iff.1 he).1 (portsEmpty_iff.1 he).2
  case start => cases h; exact .start
  case appendIn v =>
    split at h <;> cases h
    rename_i hc
    exact .appendIn v (by simpa using hc)
  case closeIn => cases h; exact .closeIn
  case takeOut j =>
    split at h
    · cases h
    · rename_i p hp
      split at h <;> cases h
      rename_i v rest hq
      exact .takeOut j p v rest hp hq
  case closeOut j =>
    split at h <;> cases h
    rename_i p hp
    exact .closeOut j p hp

@[simp] theorem emptyPorts_length (n : Nat) (shut : List Nat) : (emptyPorts n shut).length = n := by simp [emptyPorts]

theorem emptyPorts_getElem? {n j : Nat} {shut : List Nat} {p : OutPort} :
    (emptyPorts n shut)[j]? = some p ↔ j < n ∧ p = { queue := [], closed := shut.contains j } := by
  simp only [emptyPorts, List.getElem?_map, Option.map_eq_some_iff]
  constructor
  · rintro ⟨k, hk, rfl⟩
    obtain ⟨h, rfl⟩ := List.getElem?_eq_some_iff.1 hk
    simp at h ⊢
    exact h
  · rintro ⟨h, rfl⟩
    exact ⟨j, by simp [h], rfl⟩

/-- With nothing closed, the ports are those of reset (R44). -/
theorem emptyPorts_nil (n : Nat) : emptyPorts n [] = List.replicate n { queue := [], closed := false } := by
  refine List.ext_getElem? fun j => ?_
  by_cases h : j < n
  · rw [emptyPorts_getElem?.2 ⟨h, rfl⟩]; simp [h]
  · simp [emptyPorts, h]

/-- The invariant's clause on outbound closed flags, port by port. -/
theorem closed_flags_iff {s : State} : s.outPorts.map (·.closed) = (List.range s.nOut).map s.outShut.contains ↔
    ∀ (j : Nat) (p : OutPort), s.outPorts[j]? = some p → p.closed = s.outShut.contains j := by
  constructor
  · intro h j p hp
    have := congrArg (·[j]?) h
    obtain ⟨hj, rfl⟩ := List.getElem?_eq_some_iff.1 hp
    simpa [State.nOut, hj] using this
  · intro h
    refine List.ext_getElem (by simp [State.nOut]) ?_
    intro j h1 h2
    simp at h1
    simpa using h j _ (List.getElem?_eq_getElem h1)

end Sys2Proof.Machine
end

