-- ==== Sys2Proof/Laws/Integer.lean ====
section
/-! SUPPORT. The integer unit (41_add_multiply.md R164): what `wrap64` and `narrow` answer. -/

namespace Sys2Proof.Machine

theorem wordMin_le_toInt (w : Word) : wordMin ≤ w.toInt := by
  have := BitVec.le_toInt w; simp only [wordMin]; omega

theorem toInt_le_wordMax (w : Word) : w.toInt ≤ wordMax := by
  have := BitVec.toInt_lt (x := w); simp only [wordMax]; omega

/-- A non-negative Word's two readings agree. -/
theorem toNat_eq_toInt {w : Word} (h : 0 ≤ w.toInt) : (w.toNat : Int) = w.toInt := by
  have := w.isLt
  rw [BitVec.toInt_eq_toNat_cond] at h ⊢
  split at h <;> split <;> omega

theorem toInt_toNat_eq {w : Word} (h : 0 ≤ w.toInt) : w.toInt.toNat = w.toNat := by
  have := toNat_eq_toInt h; omega

/-- The zero test of the jumps (R164). -/
theorem toInt_eq_zero_iff {w : Word} : w.toInt = 0 ↔ w = 0 := by
  rw [← BitVec.toInt_inj]; simp

theorem fits_iff (x : Int) : fits x = true ↔ wordMin ≤ x ∧ x ≤ wordMax := by simp [fits]

theorem isWrapOf_wrap64 (x : Int) : IsWrapOf (wrap64 x) x := by
  refine ⟨(x - (wrap64 x).toInt) / 18446744073709551616, ?_⟩
  simp only [wrap64, BitVec.toInt_ofInt, Int.bmod]
  omega

/-- `wrap64(x)` is the only Word congruent to `x` (R9). -/
theorem eq_wrap64_of_isWrapOf {r : Word} {x : Int} (h : IsWrapOf r x) : r = wrap64 x := by
  obtain ⟨k, hk⟩ := h
  have h1 := wordMin_le_toInt r
  have h2 := toInt_le_wordMax r
  apply BitVec.eq_of_toInt_eq
  simp only [wrap64, BitVec.toInt_ofInt, Int.bmod, wordMin, wordMax] at *
  omega

theorem toInt_wrap64_of_fits {x : Int} (h1 : wordMin ≤ x) (h2 : x ≤ wordMax) : (wrap64 x).toInt = x := by
  simp only [wrap64, BitVec.toInt_ofInt, Int.bmod, wordMin, wordMax] at *
  omega

/-- An answer of `narrow` is the stored result the policy gives. -/
theorem narrow_ok_iff {p : OverflowPolicy} {x : Int} {r : Word} : narrow p x = .ok r ↔ NarrowsTo p x r := by
  unfold narrow NarrowsTo
  by_cases hf : wordMin ≤ x ∧ x ≤ wordMax
  · rw [if_pos ((fits_iff x).2 hf)]
    constructor
    · intro h
      cases h
      exact .inl ⟨hf.1, hf.2, toInt_wrap64_of_fits hf.1 hf.2⟩
    · rintro (⟨_, _, h⟩ | ⟨h, _⟩)
      · rw [eq_wrap64_of_isWrapOf (r := r) (x := x) ⟨0, by omega⟩]
      · exact absurd hf h
  · rw [if_neg (by rw [fits_iff]; exact hf)]
    cases p with
    | wrap =>
      constructor
      · intro h
        cases h
        exact .inr ⟨hf, rfl, isWrapOf_wrap64 x⟩
      · rintro (⟨h1, h2, _⟩ | ⟨_, _, h⟩)
        · exact absurd ⟨h1, h2⟩ hf
        · rw [eq_wrap64_of_isWrapOf h]
    | fault =>
      constructor
      · intro h; cases h
      · rintro (⟨h1, h2, _⟩ | ⟨_, h, _⟩)
        · exact absurd ⟨h1, h2⟩ hf
        · cases h

/-- `narrow` fails only by ArithmeticOverflow, under `Fault`, on a result outside a Word (R218). -/
theorem narrow_error_iff {p : OverflowPolicy} {x : Int} {c : Cause} :
    narrow p x = .error c ↔ c = .arithmeticOverflow ∧ p = .fault ∧ ¬ (wordMin ≤ x ∧ x ≤ wordMax) := by
  unfold narrow
  by_cases hf : wordMin ≤ x ∧ x ≤ wordMax
  · rw [if_pos ((fits_iff x).2 hf)]; simp [hf]
  · rw [if_neg (by rw [fits_iff]; exact hf)]
    cases p <;> simp [hf, eq_comm]

end Sys2Proof.Machine
end

