-- ==== Sys2Proof/Laws/Memory.lean ====
section
/-! SUPPORT. The store: reading after writing (20_memory.md R52, R53), and that every operation keeps the canonical form. -/

namespace Sys2Proof.Machine

@[simp] theorem Memory.read_nil (x : Nat) : Memory.read [] x = memoryDefault := rfl

theorem Memory.read_cons (c : Nat × Word) (m : Memory) (x : Nat) :
    Memory.read (c :: m) x = if c.1 = x then c.2 else Memory.read m x := rfl

/-- An address that is not listed reads as the default. -/
theorem Memory.read_of_unlisted {m : Memory} {x : Nat} (h : ∀ c ∈ m, c.1 ≠ x) : Memory.read m x = memoryDefault := by
  induction m with
  | nil => rfl
  | cons c m ih =>
    rw [Memory.read_cons, if_neg (h c (by simp))]
    exact ih fun d hd => h d (by simp [hd])

theorem Memory.read_erase (m : Memory) (a x : Nat) :
    Memory.read (Memory.erase m a) x = if x = a then memoryDefault else Memory.read m x := by
  induction m with
  | nil => simp [Memory.erase]
  | cons c m ih =>
    simp only [Memory.erase]
    split
    · rw [ih, Memory.read_cons]; grind
    · rw [Memory.read_cons, ih, Memory.read_cons]; grind

theorem Memory.read_insert {m : Memory} {a : Nat} (v : Word) (h : ∀ c ∈ m, c.1 ≠ a) (x : Nat) :
    Memory.read (Memory.insert m a v) x = if x = a then v else Memory.read m x := by
  induction m with
  | nil => simp only [Memory.insert, Memory.read_cons]; grind
  | cons c m ih =>
    have hc := h c (by simp)
    simp only [Memory.insert]
    split
    · rw [Memory.read_cons]; grind
    · rw [Memory.read_cons, ih (fun d hd => h d (by simp [hd])), Memory.read_cons]; grind

theorem Memory.mem_erase {m : Memory} {a : Nat} {c : Nat × Word} : c ∈ Memory.erase m a ↔ c ∈ m ∧ c.1 ≠ a := by
  induction m with
  | nil => simp [Memory.erase]
  | cons d m ih => simp only [Memory.erase]; split <;> grind

theorem Memory.mem_insert {m : Memory} {a : Nat} {v : Word} {c : Nat × Word} :
    c ∈ Memory.insert m a v ↔ c = (a, v) ∨ c ∈ m := by
  induction m with
  | nil => simp [Memory.insert]
  | cons d m ih => simp only [Memory.insert]; split <;> grind

/-- Read after write: the written address gives the value, every other address what it gave before (R53). -/
@[simp] theorem Memory.read_write (m : Memory) (a : Nat) (v : Word) (x : Nat) :
    Memory.read (Memory.write m a v) x = if x = a then v else Memory.read m x := by
  unfold Memory.write
  split
  · rw [Memory.read_erase]; grind
  · rw [Memory.read_insert v (fun c hc => (Memory.mem_erase.1 hc).2), Memory.read_erase]; grind

/-- What a write lists: the pair written, unless it is the default, and the pairs of the other addresses. -/
theorem Memory.mem_write {m : Memory} {a : Nat} {v : Word} {c : Nat × Word} :
    c ∈ Memory.write m a v ↔ (c = (a, v) ∧ v ≠ memoryDefault) ∨ (c ∈ m ∧ c.1 ≠ a) := by
  unfold Memory.write
  split
  · rename_i h; simp [Memory.mem_erase, h]
  · rename_i h; simp [Memory.mem_insert, Memory.mem_erase, h]

theorem Memory.wf_cons {c : Nat × Word} {m : Memory} :
    Memory.wf (c :: m) = true ↔ c.2 ≠ memoryDefault ∧ (∀ d ∈ m, c.1 < d.1) ∧ Memory.wf m = true := by
  simp [Memory.wf, and_assoc]

theorem Memory.wf_erase {m : Memory} (a : Nat) (h : Memory.wf m = true) : Memory.wf (Memory.erase m a) = true := by
  induction m with
  | nil => rfl
  | cons c m ih =>
    obtain ⟨h1, h2, h3⟩ := Memory.wf_cons.1 h
    simp only [Memory.erase]
    split
    · exact ih h3
    · exact Memory.wf_cons.2 ⟨h1, fun d hd => h2 d (Memory.mem_erase.1 hd).1, ih h3⟩

theorem Memory.wf_insert {m : Memory} {a : Nat} {v : Word} (hv : v ≠ memoryDefault) (ha : ∀ c ∈ m, c.1 ≠ a)
    (h : Memory.wf m = true) : Memory.wf (Memory.insert m a v) = true := by
  induction m with
  | nil => simpa [Memory.insert, Memory.wf] using hv
  | cons c m ih =>
    obtain ⟨h1, h2, h3⟩ := Memory.wf_cons.1 h
    have hc := ha c (by simp)
    simp only [Memory.insert]
    split
    · exact Memory.wf_cons.2 ⟨hv, by grind, h⟩
    · refine Memory.wf_cons.2 ⟨h1, fun d hd => ?_, ih (fun d hd => ha d (by simp [hd])) h3⟩
      rcases Memory.mem_insert.1 hd with rfl | hd
      · simp only; omega
      · exact h2 d hd

/-- A write keeps the canonical form. -/
theorem Memory.wf_write {m : Memory} (a : Nat) (v : Word) (h : Memory.wf m = true) : Memory.wf (Memory.write m a v) = true := by
  unfold Memory.write
  split
  · exact Memory.wf_erase a h
  · rename_i hv
    exact Memory.wf_insert hv (fun c hc => (Memory.mem_erase.1 hc).2) (Memory.wf_erase a h)

theorem Memory.ofImageAt_bounds {a : Nat} {image : List Word} {c : Nat × Word} (h : c ∈ Memory.ofImageAt a image) :
    a ≤ c.1 ∧ c.1 < a + image.length := by
  induction image generalizing a with
  | nil => simp [Memory.ofImageAt] at h
  | cons p image ih =>
    simp only [Memory.ofImageAt] at h
    simp only [List.length_cons]
    split at h
    · have := ih h; omega
    · rcases List.mem_cons.1 h with rfl | h
      · simp only; omega
      · have := ih h; omega

/-- A loaded image is in canonical form. -/
theorem Memory.wf_ofImageAt (a : Nat) (image : List Word) : Memory.wf (Memory.ofImageAt a image) = true := by
  induction image generalizing a with
  | nil => rfl
  | cons p image ih =>
    simp only [Memory.ofImageAt]
    split
    · exact ih (a + 1)
    · rename_i hp
      exact Memory.wf_cons.2 ⟨hp, fun d hd => by have := Memory.ofImageAt_bounds hd; simp only; omega, ih (a + 1)⟩

/-- A loaded image reads as its Words at their addresses (R40). -/
theorem Memory.read_ofImageAt (a : Nat) (image : List Word) (k : Nat) :
    Memory.read (Memory.ofImageAt a image) (a + k) = image.getD k 0 := by
  induction image generalizing a k with
  | nil => simp [Memory.ofImageAt, memoryDefault]
  | cons p image ih =>
    cases k with
    | zero =>
      simp only [Memory.ofImageAt]
      split
      · rename_i hp
        rw [Memory.read_of_unlisted]
        · simp [hp]
        · intro c hc
          have := Memory.ofImageAt_bounds hc
          omega
      · simp [Memory.read_cons]
    | succ k =>
      have key : a + (k + 1) = (a + 1) + k := by omega
      simp only [Memory.ofImageAt]
      split
      · rw [key, ih]; simp
      · rw [Memory.read_cons, if_neg (by simp only; omega), key, ih]; simp

end Sys2Proof.Machine
end

