-- ==== Sys2Proof/Laws/Exec.lean ====
section
/-! SUPPORT. What an instruction can do: one inversion lemma per meaning, gathered in `Effect`, from which every invariant and frame
is derived without unfolding a meaning again. -/

namespace Sys2Proof.Machine

theorem settle_next_iff {s t : State} {r : Except Cause State} :
    settle s r = .next t ↔ r = .ok t ∨ ∃ c, r = .error c ∧ t = s.takeFault c := by
  cases r <;> simp [settle, eq_comm]

/-- `settle` always answers a next state. -/
theorem settle_is_next (s : State) (r : Except Cause State) : ∃ t, settle s r = .next t := by
  cases r <;> exact ⟨_, rfl⟩

/-- A closed port stops the fan-out; without one every port takes the value (R172). -/
theorem broadcast_of_open {v : Word} {ps : List OutPort} (h : ∀ p ∈ ps, p.closed = false) :
    broadcast v ps = (ps.map fun p => { p with queue := p.queue ++ [v] }, true) := by
  induction ps with
  | nil => rfl
  | cons p ps ih =>
    have hp := h p (by simp)
    simp [broadcast, hp, ih fun q hq => h q (by simp [hq])]

/-- The ports before the first closed one keep the value, that one and the later ones are as before (R173). -/
theorem broadcast_of_closed {v : Word} {pre post : List OutPort} {p : OutPort} (h : ∀ q ∈ pre, q.closed = false)
    (hp : p.closed = true) :
    broadcast v (pre ++ p :: post) = (pre.map (fun q => { q with queue := q.queue ++ [v] }) ++ p :: post, false) := by
  induction pre with
  | nil => simp [broadcast, hp]
  | cons q pre ih =>
    have hq := h q (by simp)
    simp [broadcast, hq, ih fun r hr => h r (by simp [hr])]

/-- A fan-out changes no closed flag and not the number of ports. -/
theorem broadcast_closed (v : Word) (ps : List OutPort) :
    (broadcast v ps).1.map (·.closed) = ps.map (·.closed) := by
  induction ps with
  | nil => rfl
  | cons p ps ih =>
    simp only [broadcast]
    split <;> simp_all

/-- The instructions of format F3, with their write target. -/
def Instr.isStoring (i : Instr) (dst : Operand) : Prop :=
  ∃ a b, i = .add a b dst ∨ i = .multiply a b dst ∨ i = .lessThan a b dst ∨ i = .equals a b dst

/-- Everything an instruction can do when it answers a next state (phase 7 of R132, for every instruction). -/
inductive Effect (s : State) : Instr → State → Prop where
  /-- A fault is taken and nothing else is written (R221, R222). -/
  | faulted {i : Instr} (c : Cause)
      (hc : isOperandCause c ∨ (c = .arithmeticOverflow ∧ s.config.overflowPolicy = .fault) ∨ c = .inputExhausted) : Effect s i (s.takeFault c)
  /-- Add, Multiply, LessThan and Equals store one Word. -/
  | stored {i : Instr} (dst : Operand) (d : Nat) (v : Word) (hi : Instr.isStoring i dst) (hf : Fits s 4)
      (hd : Targets s dst d) : Effect s i ((s.store d v).advance 4)
  /-- Input takes the head of the queue. -/
  | input (dst : Operand) (d : Nat) (v : Word) (rest : List Word) (hq : s.inQueue = v :: rest) (hf : Fits s 2)
      (hd : Targets s dst d) : Effect s (.input dst) (((s.setInQueue rest).store d v).advance 2)
  /-- Output reaches every port. -/
  | output (a : Operand) (v : Word) (hf : Fits s 2) (ha : ReadsAs s a v) (ho : ∀ p ∈ s.outPorts, p.closed = false) :
      Effect s (.output a) ((s.setOutPorts (s.outPorts.map fun p => { p with queue := p.queue ++ [v] })).advance 2)
  /-- Output meets a closed port. -/
  | outputClosed (a : Operand) (v : Word) (pre post : List OutPort) (p : OutPort) (hf : Fits s 2) (ha : ReadsAs s a v)
      (hs : s.outPorts = pre ++ p :: post) (ho : ∀ q ∈ pre, q.closed = false) (hp : p.closed = true) :
      Effect s (.output a)
        ((s.setOutPorts (pre.map (fun q => { q with queue := q.queue ++ [v] }) ++ p :: post)).takeFault .outputClosed)
  /-- A jump is taken. -/
  | jumped {i : Instr} (c g : Operand) (t : Word) (hi : i = .jumpIfTrue c g ∨ i = .jumpIfFalse c g) (ht : 0 ≤ t.toInt) :
      Effect s i (s.setIp t.toNat)
  /-- A jump falls through. -/
  | fellThrough {i : Instr} (c g : Operand) (hi : i = .jumpIfTrue c g ∨ i = .jumpIfFalse c g) (hf : Fits s 3) :
      Effect s i (s.advance 3)
  /-- AdjustRelativeBase writes `rb`. -/
  | adjusted (a : Operand) (v r : Word) (hf : Fits s 2) (ha : ReadsAs s a v) :
      Effect s (.adjustRelativeBase a) ((s.setRb r).advance 2)
  /-- Halt. -/
  | halted : Effect s .halt s.setHalted

/-- A taken jump goes to a non-negative target, or faults. -/
theorem jumpTo_next {s t : State} {w : Word} (h : settle s (jumpTo s w) = .next t) :
    (0 ≤ w.toInt ∧ t = s.setIp w.toNat) ∨ t = s.takeFault .negativeAddress := by
  unfold jumpTo at h
  split at h
  · exact .inr (Host.Outcome.next.inj h).symm
  · exact .inl ⟨by omega, (Host.Outcome.next.inj h).symm⟩

/-- Add and Multiply, through the shared resolution and the overflow policy. -/
theorem narrowed_effect {s t : State} {i : Instr} {a b dst : Operand} {f : Word → Word → Int} (hi : Instr.isStoring i dst)
    (h : settle s (resolveRRW s a b dst >>= fun q =>
      narrow s.config.overflowPolicy (f q.1 q.2.1) >>= fun r => .ok ((s.store q.2.2 r).advance 4)) = .next t) :
    Effect s i t := by
  rcases settle_next_iff.1 h with h | ⟨c, he, rfl⟩
  · obtain ⟨⟨x, y, d⟩, hr, h⟩ := bind_eq_ok.1 h
    obtain ⟨r, _, h⟩ := bind_eq_ok.1 h
    obtain ⟨hf, _, _, hd⟩ := resolveRRW_ok_iff.1 hr
    cases h
    exact .stored dst d r hi hf hd
  · rcases bind_eq_error.1 he with h | ⟨⟨x, y, d⟩, _, h⟩
    · exact .faulted c (.inl (resolveRRW_error_cause h))
    · rcases bind_eq_error.1 h with h | ⟨r, _, h⟩
      · exact .faulted c (.inr (.inl ⟨(narrow_error_iff.1 h).1, (narrow_error_iff.1 h).2.1⟩))
      · cases h

/-- LessThan and Equals, through the shared resolution. -/
theorem compared_effect {s t : State} {i : Instr} {a b dst : Operand} {f : Word → Word → Word} (hi : Instr.isStoring i dst)
    (h : settle s (resolveRRW s a b dst >>= fun q => .ok ((s.store q.2.2 (f q.1 q.2.1)).advance 4)) = .next t) :
    Effect s i t := by
  rcases settle_next_iff.1 h with h | ⟨c, he, rfl⟩
  · obtain ⟨⟨x, y, d⟩, hr, h⟩ := bind_eq_ok.1 h
    obtain ⟨hf, _, _, hd⟩ := resolveRRW_ok_iff.1 hr
    cases h
    exact .stored dst d _ hi hf hd
  · rcases bind_eq_error.1 he with h | ⟨_, _, h⟩
    · exact .faulted c (.inl (resolveRRW_error_cause h))
    · cases h

/-- The two jumps, whatever decides between their two ways. -/
theorem jump_effect {s t : State} {i : Instr} {c g : Operand} {f : Word → Prop} [DecidablePred f]
    (hi : i = .jumpIfTrue c g ∨ i = .jumpIfFalse c g)
    (h : settle s (resolveRR s c g >>= fun q => if f q.1 then jumpTo s q.2 else .ok (s.advance 3)) = .next t) :
    Effect s i t := by
  cases hr : resolveRR s c g with
  | error e =>
    rw [hr] at h
    cases h
    exact .faulted e (.inl (resolveRR_error_cause hr))
  | ok q =>
    obtain ⟨x, y⟩ := q
    obtain ⟨hf, _, _⟩ := resolveRR_ok_iff.1 hr
    rw [hr, bind_ok] at h
    split at h
    · rcases jumpTo_next h with ⟨ht, rfl⟩ | rfl
      · exact .jumped c g y hi ht
      · exact .faulted _ (.inl (.inr (.inr rfl)))
    · cases h
      exact .fellThrough c g hi hf

theorem execInput_effect {s t : State} {dst : Operand} (h : execInput dst s = .next t) : Effect s (.input dst) t := by
  unfold execInput at h
  split at h
  · rename_i c hc
    cases h
    exact .faulted c (.inl (resolveW_error_cause hc))
  · rename_i d hd
    obtain ⟨hf, hd⟩ := resolveW_ok_iff.1 hd
    split at h
    · rename_i v rest hq
      cases h
      exact .input dst d v rest hq hf hd
    · split at h <;> cases h
      exact .faulted _ (.inr (.inr rfl))

/-- Ports are all open, or split at the first closed one. -/
theorem ports_split (ps : List OutPort) :
    (∀ p ∈ ps, p.closed = false) ∨
      ∃ pre p post, ps = pre ++ p :: post ∧ (∀ q ∈ pre, q.closed = false) ∧ p.closed = true := by
  induction ps with
  | nil => exact .inl (by simp)
  | cons p ps ih =>
    cases hp : p.closed with
    | true => exact .inr ⟨[], p, ps, rfl, by simp, hp⟩
    | false =>
      rcases ih with h | ⟨pre, q, post, rfl, h, hq⟩
      · exact .inl (by simpa [hp] using h)
      · exact .inr ⟨p :: pre, q, post, rfl, by simpa [hp] using h, hq⟩

theorem execOutput_effect {s t : State} {a : Operand} (h : execOutput a s = .next t) : Effect s (.output a) t := by
  unfold execOutput at h
  split at h
  · rename_i c hc
    cases h
    exact .faulted c (.inl (resolveR_error_cause hc))
  · rename_i v hv
    obtain ⟨hf, ha⟩ := resolveR_ok_iff.1 hv
    rcases ports_split s.outPorts with ho | ⟨pre, p, post, hs, ho, hp⟩
    · rw [broadcast_of_open ho, if_pos rfl] at h
      cases h
      exact .output a v hf ha ho
    · rw [hs, broadcast_of_closed ho hp, if_neg (by simp)] at h
      cases h
      exact .outputClosed a v pre post p hf ha hs ho hp

theorem execAdjustRelativeBase_effect {s t : State} {a : Operand} (h : execAdjustRelativeBase a s = .next t) :
    Effect s (.adjustRelativeBase a) t := by
  unfold execAdjustRelativeBase at h
  rcases settle_next_iff.1 h with h | ⟨c, he, rfl⟩
  · obtain ⟨v, hv, h⟩ := bind_eq_ok.1 h
    obtain ⟨r, _, h⟩ := bind_eq_ok.1 h
    obtain ⟨hf, ha⟩ := resolveR_ok_iff.1 hv
    cases h
    exact .adjusted a v r hf ha
  · rcases bind_eq_error.1 he with h | ⟨v, _, h⟩
    · exact .faulted c (.inl (resolveR_error_cause h))
    · rcases bind_eq_error.1 h with h | ⟨r, _, h⟩
      · exact .faulted c (.inr (.inl ⟨(narrow_error_iff.1 h).1, (narrow_error_iff.1 h).2.1⟩))
      · cases h

/-- The inversion of `exec`: a next state is one of the effects. -/
theorem exec_effect {s t : State} {i : Instr} (h : exec i s = .next t) : Effect s i t := by
  cases i with
  | add a b dst => exact narrowed_effect (f := exactSum) ⟨a, b, .inl rfl⟩ h
  | multiply a b dst => exact narrowed_effect (f := exactProduct) ⟨a, b, .inr (.inl rfl)⟩ h
  | input dst => exact execInput_effect h
  | output a => exact execOutput_effect h
  | jumpIfTrue c g => exact jump_effect (f := fun w => w ≠ 0) (.inl rfl) h
  | jumpIfFalse c g => exact jump_effect (f := fun w => w = 0) (.inr rfl) h
  | lessThan a b dst => exact compared_effect (f := lessThanWord) ⟨a, b, .inr (.inr (.inl rfl))⟩ h
  | equals a b dst => exact compared_effect (f := equalsWord) ⟨a, b, .inr (.inr (.inr rfl))⟩ h
  | adjustRelativeBase a => exact execAdjustRelativeBase_effect h
  | halt => cases h; exact .halted

end Sys2Proof.Machine
end

