-- ==== Sys2Proof/Laws/PerInstr.lean ====
section
/-! SUPPORT. Families of statements about every instruction as syntax, one lemma per constructor. -/

namespace Sys2Proof.Laws

namespace EncodeLength

/-- The encoding has as many Words as the opcode map gives the operation (30_encoding.md R90, R103). -/
def Statement (i : Instr) : Prop := (encode i).length = 1 + i.opcode.arity

theorem add (a b dst : Operand) : Statement (.add a b dst) := rfl
theorem multiply (a b dst : Operand) : Statement (.multiply a b dst) := rfl
theorem input (dst : Operand) : Statement (.input dst) := rfl
theorem output (a : Operand) : Statement (.output a) := rfl
theorem jumpIfTrue (cond target : Operand) : Statement (.jumpIfTrue cond target) := rfl
theorem jumpIfFalse (cond target : Operand) : Statement (.jumpIfFalse cond target) := rfl
theorem lessThan (a b dst : Operand) : Statement (.lessThan a b dst) := rfl
theorem equals (a b dst : Operand) : Statement (.equals a b dst) := rfl
theorem adjustRelativeBase (a : Operand) : Statement (.adjustRelativeBase a) := rfl
theorem halt : Statement .halt := rfl

end EncodeLength

end Sys2Proof.Laws
end

