-- ==== Sys2Proof/Laws/Step.lean ====
section
/-! SUPPORT. The step and schedules: what a decode error and a mode digit come to, the ports under a step, a schedule's first
event. -/

namespace Sys2Proof.Machine

/-- A decode error at a legal `ip` is the fault of the fetch (R226). -/
theorem fetchInstr_of_decode_error {s : State} {e : DecodeError} (hi : s.ip ≤ s.config.addrMax.val)
    (hd : decodeHead (s.mem.read s.ip) = .error e) : fetchInstr s = .error (Cause.ofDecodeError e) := by
  have : fetchHead s = .error (Cause.ofDecodeError e) := by
    unfold fetchHead
    rw [checkAddress_ok_iff.2 ⟨⟨by omega, by omega⟩, rfl⟩]
    simp only [Int.toNat_natCast, hd]
  simp [fetchInstr, this]

/-- The write target is the last operand (R97). -/
theorem writeTarget_eq_arity {op : Opcode} {k : Nat} (h : op.writeTarget = some k) : k = op.arity := by
  cases op <;> simp_all [Opcode.writeTarget, Opcode.arity]

/-- A digit beyond the arity is not examined (R96). -/
theorem decodeMode_beyond {op : Opcode} {v k : Nat} (hk : op.arity < k) : decodeMode op v k = .ok .position := by
  unfold decodeMode
  rw [if_pos hk]

/-- A digit 3 to 9 of an operand (R100). -/
theorem decodeMode_unknown {op : Opcode} {v k : Nat} (hk : k ≤ op.arity) (h : 3 ≤ v / 10 ^ (k + 1) % 10) :
    decodeMode op v k = .error .unknownAddressingMode := by
  unfold decodeMode decimalDigit
  rw [if_neg (by omega)]
  generalize v / 10 ^ (k + 1) % 10 = d at *
  unfold modeOfDigit
  split
  · rfl
  · split at * <;> simp_all

/-- An Immediate write target (R101). -/
theorem decodeMode_immediate_target {op : Opcode} {v k : Nat} (hk : op.writeTarget = some k)
    (h : v / 10 ^ (k + 1) % 10 = 1) : decodeMode op v k = .error .invalidDestinationMode := by
  unfold decodeMode decimalDigit
  rw [if_neg (by have := writeTarget_eq_arity hk; omega), h]
  simp [modeOfDigit, hk]

/-- An operand before the last one is a read operand: its digit is a mode or unknown. -/
theorem decodeMode_before_last {op : Opcode} {v k : Nat} (hk : k < op.arity) :
    decodeMode op v k = .error .unknownAddressingMode ∨ ∃ m, decodeMode op v k = .ok m := by
  unfold decodeMode
  rw [if_neg (by omega)]
  split
  · exact .inl rfl
  · rename_i m _
    rw [if_neg]
    · exact .inr ⟨_, rfl⟩
    · rintro ⟨h, _⟩; have := writeTarget_eq_arity h; omega

/-- The mode a decoded operand has is its digit's (R94). -/
theorem digit_of_decodeMode {op : Opcode} {v k : Nat} {m : Mode} (h : decodeMode op v k = .ok m) (hk : k ≤ op.arity) :
    v / 10 ^ (k + 1) % 10 = m.digit := by
  unfold decodeMode decimalDigit at h
  rw [if_neg (by omega)] at h
  split at h
  · cases h
  · rename_i n hn
    split at h <;> cases h
    exact digit_of_modeOfDigit hn

/-- Under `Wrap` every exact result has a Word (R164). -/
theorem narrow_wrap (x : Int) : narrow .wrap x = .ok (wrap64 x) := by
  unfold narrow
  split <;> rfl

/-- A store and a fall-through, in the terms of the statements. -/
theorem stored_store_advance (s : State) (d : Nat) (v : Word) (n : Nat) : Stored s ((s.store d v).advance n) d v n := by
  refine ⟨by simp, fun x hx => by simp [hx], ?_, by simp, by rfl⟩
  simp
  split <;> omega

/-- No step changes a closed flag (R175), nor the record of what the environment has closed. -/
theorem step_closed_flags {s t : State} (h : step s = .next t) :
    t.inClosed = s.inClosed ∧ t.outPorts.map (·.closed) = s.outPorts.map (·.closed) ∧ t.inShut = s.inShut ∧ t.outShut = s.outShut := by
  obtain ⟨_, ⟨c, _, rfl⟩ | ⟨i, _, h⟩⟩ := step_next_iff.1 h
  · simp
  · cases exec_effect h <;> simp_all [Function.comp_def]

/-- A schedule runs its first event, then the rest. -/
theorem runMoves_cons {m : Move} {ms : List Move} {s t : State} :
    runMoves (m :: ms) s = .next t ↔ ∃ u, move m s = .next u ∧ runMoves ms u = .next t := by
  simp only [runMoves]
  split <;> simp_all

end Sys2Proof.Machine
end

