-- ==== Sys2Proof/Tests/Slice0.lean ====
section
/-! SUPPORT. The model's own tests: the smoke test of WellFormed, words written out from the spec's encoding (30_encoding.md R98,
R110), single steps of the vectors of 95_test_vectors.md, and for every statement with hypotheses a witness that they can hold
together. Expected results are the spec's. -/

namespace Sys2Proof.Tests

open Sys2Proof Sys2Proof.Machine

/-! ## Helpers -/

/-- The largest and smallest Words. -/
abbrev maxW : Word := 9223372036854775807#64
abbrev minW : Word := 9223372036854775808#64

/-- Operands by mode. -/
def pos (r : Word) : Operand := ⟨.position, r⟩
def imm (r : Word) : Operand := ⟨.immediate, r⟩
def rel (r : Word) : Operand := ⟨.relative, r⟩

/-- A started core of parameters `c` with one outbound port, the image loaded and an inbound port that holds `q` and was then closed. -/
def bootWith (c : Config) (image q : List Word) : State :=
  { State.resetWith c 1 with
    mem := Memory.ofImageAt 0 image
    memLen := image.length
    inQueue := q
    inClosed := true
    inShut := true
    started := true }

/-- The same with the spec's parameters. -/
def boot (image : List Word) : State := bootWith Config.specChoice image []

/-- `OVERFLOW_POLICY = Fault`. -/
def faultPolicy : Config := { Config.specChoice with overflowPolicy := .fault }

/-- `MEM_CAPACITY = 16` (95_test_vectors.md section 5.2). -/
def sixteen : Config := { Config.specChoice with addrMax := ⟨15, by decide⟩ }

/-- What one step leaves, read by `f`; none where there is no next state. -/
def after {α : Type} (s : State) (f : State → α) : Option α :=
  match step s with
  | .next t => some (f t)
  | .fault _ => none
  | .refused _ => none

/-- The run state, fault code and `ip`. -/
def status (t : State) : RunState × Nat × Nat := (t.runState, t.faultCode, t.ip)

/-! ## WellFormed: a term with an Immediate write target is refused, for each instruction that has one (R101) -/

theorem test_illformed_add : (Instr.add (pos 1) (imm 2) (imm 3)).wellFormed = false := by decide
theorem test_illformed_multiply : (Instr.multiply (pos 1) (imm 2) (imm 3)).wellFormed = false := by decide
theorem test_illformed_input : (Instr.input (imm 3)).wellFormed = false := by decide
theorem test_illformed_lessThan : (Instr.lessThan (pos 1) (imm 2) (imm 3)).wellFormed = false := by decide
theorem test_illformed_equals : (Instr.equals (pos 1) (imm 2) (imm 3)).wellFormed = false := by decide

/-! ## Decoding: words written out from R91, R94 and R98 -/

/-- `CBA01`: C = 2, B = 1, A = 0. -/
theorem test_decode_add : decode [21001, 7, 8, 9, 99] = .ok (.add (pos 7) (imm 8) (rel 9), [99]) := by decide
/-- `CBA02`: C = 0, B = 2, A = 1. -/
theorem test_decode_multiply : decode [2102, 7, 8, 9] = .ok (.multiply (imm 7) (rel 8) (pos 9), []) := by decide
/-- `A03`: A = 2; the next Word belongs to what follows. -/
theorem test_decode_input : decode [203, -7, 99] = .ok (.input (rel (-7)), [99]) := by decide
/-- `A04`: A = 1. -/
theorem test_decode_output : decode [104, -5, 99] = .ok (.output (imm (-5)), [99]) := by decide
/-- `BA05`: B = 2, A = 1. -/
theorem test_decode_jumpIfTrue : decode [2105, 7, 8, 99] = .ok (.jumpIfTrue (imm 7) (rel 8), [99]) := by decide
/-- `BA06`: B = 1, A = 2. -/
theorem test_decode_jumpIfFalse : decode [1206, 7, 8] = .ok (.jumpIfFalse (rel 7) (imm 8), []) := by decide
/-- `CBA07`: C = 2, B = 0, A = 1. -/
theorem test_decode_lessThan : decode [20107, 7, 8, 9] = .ok (.lessThan (imm 7) (pos 8) (rel 9), []) := by decide
/-- `CBA08`: C = 0, B = 1, A = 2. -/
theorem test_decode_equals : decode [1208, 7, 8, 9] = .ok (.equals (rel 7) (imm 8) (pos 9), []) := by decide
/-- `A09`: A = 2. -/
theorem test_decode_adjustRelativeBase : decode [209, 7] = .ok (.adjustRelativeBase (rel 7), []) := by decide
/-- TD11: the digit 3 belongs to no operand of Halt. -/
theorem test_decode_halt : decode [3099, 1] = .ok (.halt, [1]) := by decide

/-- R107: the encoder gives those words back. -/
theorem test_encode : encode (.add (pos 7) (imm 8) (rel 9)) = [21001, 7, 8, 9] ∧ encode (.input (rel (-7))) = [203, -7] ∧
    encode (.jumpIfFalse (rel 7) (imm 8)) = [1206, 7, 8] ∧ encode .halt = [99] := by decide

/-- TD1 to TD8, TD13 to TD23: the decoder's three errors, and which of two comes first. -/
theorem test_decode_errors :
    [0, -1, -99, 33, 10, 98, 100].map (fun w : Word => decodeHead w) = List.replicate 7 (.error .unknownOpcode) ∧
    [301, 3001, 30001, 304, 905, 13001, 10301].map (fun w : Word => decodeHead w) = List.replicate 7 (.error .unknownAddressingMode) ∧
    [10001, 103, 11107, 11108].map (fun w : Word => decodeHead w) = List.replicate 4 (.error .invalidDestinationMode) := by decide

/-- R98: the number of legal forms of an operation, digit beyond digit. -/
def legalForms (op : Nat) (digits : List Nat) : Nat :=
  digits.countP fun d => match decodeHead (BitVec.ofNat 64 (d * 100 + op)) with
    | .ok _ => true
    | .error _ => false

/-- The mode digits of one, two and three operands. -/
def digits1 : List Nat := [0, 1, 2]
def digits2 : List Nat := digits1.flatMap fun b => digits1.map fun a => b * 10 + a
def digits3 : List Nat := digits1.flatMap fun c => digits2.map fun a => c * 100 + a

/-- R98: `4*18 + 2 + 3 + 2*9 + 3 + 1 = 99` legal forms. -/
theorem test_legal_forms : [1, 2, 7, 8].map (legalForms · digits3) = [18, 18, 18, 18] ∧ [5, 6].map (legalForms · digits2) = [9, 9] ∧
    [3, 4, 9].map (legalForms · digits1) = [2, 3, 3] ∧ legalForms 99 [0] = 1 := by decide

/-- The opcode table's bits: Word 1 is bits 64 to 127; bits above `nbits` count as 0. -/
theorem test_decodeTableWord : decodeTableWord 256 (1101 + 5 * 2 ^ 64 + 6 * 2 ^ 128 + 7 * 2 ^ 192) = some (.add (imm 5) (imm 6) (pos 7)) ∧
    decodeTableWord 64 (1101 + 5 * 2 ^ 64) = some (.add (imm 0) (imm 0) (pos 0)) ∧ decodeTableWord 64 99 = some .halt := by decide

/-- A word placed after reset is the next step's instruction. -/
theorem test_withFetchWord : after (State.reset.withFetchWord 128 (109 + 5 * 2 ^ 64)) (fun t => (t.rb, t.ip)) = some (5, 2) := by decide

/-! ## Single steps (95_test_vectors.md) -/

/-- TA4: MAX + 1 under `Wrap`. -/
theorem test_add_wraps : after (boot [1101, maxW, 1, 5, 99, 0]) (fun t => (t.mem.read 5, t.ip)) = some (minW, 4) := by decide
/-- TA5: the same under `Fault`. -/
theorem test_add_overflow_faults :
    after (bootWith faultPolicy [1101, maxW, 1, 5, 99, 0] []) (fun t => (status t, t.mem.read 5)) = some ((.faulted, 8, 0), 0) := by decide
/-- TM9: the smallest overflowing square. -/
theorem test_multiply_wraps :
    after (boot [1102, 3037000500, 3037000500, 5, 99, 0]) (fun t => (t.mem.read 5).toInt) = some (-9223372036709301616) := by decide
/-- TM3: a negative factor. -/
theorem test_multiply_signed : after (boot [1102, -3, 7, 5, 99, 0]) (fun t => (t.mem.read 5).toInt) = some (-21) := by decide
/-- TI10: the head of the queue goes to address 5, past the image. -/
theorem test_input_takes_head : after (bootWith Config.specChoice [3, 5, 99] [minW, 4])
    (fun t => (t.mem.read 5, t.inQueue, t.memLen, t.ip)) = some (minW, [4], 6, 2) := by decide
/-- TI4, TI7: an empty open port stalls, but a bad address faults first. -/
theorem test_input_stall : step { boot [3, 5, 99] with inClosed := false, inShut := false } = .fault .inputStall ∧
    after { boot [3, -1, 99] with inClosed := false, inShut := false } status = some (.faulted, 6, 0) := by
  refine ⟨by rfl, by decide⟩
/-- TO3's second step: `mem[3 + 2]`. -/
theorem test_output_relative :
    after { boot [109, 3, 204, 2, 99, 555] with ip := 2, rb := 3 } (fun t => (t.outPorts.map (·.queue), t.ip)) = some ([[555]], 4) := by decide
/-- TO6: the port before the closed one keeps the value. -/
theorem test_output_closed_port : after { boot [104, 5, 99] with outPorts := [⟨[], false⟩, ⟨[], true⟩] }
    (fun t => (t.outPorts.map (·.queue), status t)) = some ([[5], []], (.faulted, 5, 0)) := by decide
/-- TJ7: a taken jump to -1. -/
theorem test_jumpIfTrue_negative_target : after (boot [1105, 1, -1]) status = some (.faulted, 6, 0) := by decide
/-- TJ16: the largest target is written. -/
theorem test_jumpIfTrue_largest_target : after (boot [1105, 1, maxW]) status = some (.running, 0, 9223372036854775807) := by decide
/-- TJ11: not taken, yet the target's address is checked. -/
theorem test_jumpIfFalse_eager : after (boot [6, 0, -1, 99]) status = some (.faulted, 6, 0) := by decide
/-- TJ3. -/
theorem test_jumpIfFalse_taken : after (boot [1106, 0, 4, 99, 104, 7, 99]) status = some (.running, 0, 4) := by decide
/-- TC4, TC2: signed, first operand less than second. -/
theorem test_lessThan_signed : after (boot [1107, -1, 0, 5, 99, 9]) (·.mem.read 5) = some 1 ∧
    after (boot [1107, 8, 3, 5, 99, 9]) (·.mem.read 5) = some 0 := by decide
/-- TC7: the destination is an operand; its old value is compared. -/
theorem test_lessThan_in_place : after (boot [7, 5, 6, 5, 99, 2, 3]) (·.mem.read 5) = some 1 := by decide
/-- TC11: two addresses never written. -/
theorem test_equals_unwritten : after (boot [8, 100, 200, 5, 99, 9]) (fun t => (t.mem.read 5, t.memLen)) = some (1, 6) := by decide
/-- TC10. -/
theorem test_equals_signed : after (boot [1108, 5, -5, 5, 99, 9]) (·.mem.read 5) = some 0 := by decide
/-- TB4's second step: the operand is read with the old `rb`. -/
theorem test_adjust_old_rb : after { boot [109, 3, 209, 2, 99, 17] with ip := 2, rb := 3 } (fun t => (t.rb, t.ip)) = some (20, 4) := by decide
/-- TB7's second step. -/
theorem test_adjust_overflow_faults :
    after { bootWith faultPolicy [109, maxW, 109, 1, 99] [] with ip := 2, rb := maxW } (fun t => (status t, t.rb)) =
      some ((.faulted, 8, 2), maxW) := by decide
/-- TH1: nothing but the run state changes. -/
theorem test_halt_only_run_state : step (boot [99]) = .next { boot [99] with runState := .halted } := by rfl

/-- TB11, TB12: the address adder does not wrap. -/
theorem test_address_adder_exact : after { boot [109, maxW, 204, 1, 99] with ip := 2, rb := maxW } status = some (.faulted, 7, 2) ∧
    after { boot [109, minW, 204, -1, 99] with ip := 2, rb := minW } status = some (.faulted, 6, 2) := by decide
/-- TK1, TK2, TK7: capacity 16; the jump completes and the next fetch faults. -/
theorem test_capacity : after (bootWith sixteen [1101, 1, 2, 100, 99] []) status = some (.faulted, 7, 0) ∧
    after (bootWith sixteen [1101, 1, 2, 15, 99] []) (fun t => (t.mem.read 15, t.memLen)) = some (3, 16) ∧
    after (bootWith sixteen [1105, 1, 50] []) status = some (.running, 0, 50) ∧
    after { bootWith sixteen [1105, 1, 50] [] with ip := 50 } status = some (.faulted, 7, 50) := by decide
/-- TQ1, TQ2: phase 3 before phase 6. -/
theorem test_fault_priority : after (boot [10001, -1, 0, 0]) status = some (.faulted, 3, 0) ∧
    after (boot [301, -1, -1, -1]) status = some (.faulted, 2, 0) := by decide

/-- A core at `MAX - back` with the word `w` there. -/
def atTop (back : Nat) (w : Word) : State :=
  { boot [] with
    mem := [(9223372036854775807 - back, w)]
    memLen := 9223372036854775808 - back
    ip := 9223372036854775807 - back }

/-- TT1 to TT4: the length check, and Halt's exemption. -/
theorem test_top_of_memory : after (atTop 0 99) status = some (.halted, 0, 9223372036854775807) ∧
    after (atTop 2 1105) status = some (.faulted, 7, 9223372036854775805) ∧
    after (atTop 1 104) status = some (.faulted, 7, 9223372036854775806) ∧
    after (atTop 2 104) (fun t => (t.outPorts.map (·.queue), t.ip)) = some ([[0]], 9223372036854775807) := by decide

/-! ## Witnesses: for every statement with hypotheses, states and operands that meet them together -/

theorem reads_pos {s : State} {r : Word} (h : 0 ≤ r.toInt ∧ r.toInt ≤ s.config.addrMax.val) :
    ReadsAs s (pos r) (s.mem.read r.toInt.toNat) := .inr ⟨_, .inl ⟨rfl, rfl⟩, h, rfl⟩

theorem reads_imm {s : State} {r : Word} : ReadsAs s (imm r) r := .inl ⟨rfl, rfl⟩

theorem reads_rel {s : State} {r : Word} (h : 0 ≤ s.rb.toInt + r.toInt ∧ s.rb.toInt + r.toInt ≤ s.config.addrMax.val) :
    ReadsAs s (rel r) (s.mem.read (s.rb.toInt + r.toInt).toNat) := .inr ⟨_, .inr ⟨rfl, rfl⟩, h, rfl⟩

theorem targets_pos {s : State} {r : Word} {d : Nat} (h : (d : Int) = r.toInt ∧ 0 ≤ (d : Int) ∧ (d : Int) ≤ s.config.addrMax.val) :
    Targets s (pos r) d := ⟨.inl ⟨rfl, h.1⟩, h.2⟩

theorem targets_rel {s : State} {r : Word} {d : Nat}
    (h : (d : Int) = s.rb.toInt + r.toInt ∧ 0 ≤ (d : Int) ∧ (d : Int) ≤ s.config.addrMax.val) :
    Targets s (rel r) d := ⟨.inr ⟨rfl, h.1⟩, h.2⟩

theorem next_of {s : State} {i : Instr} {rest : List Word} (h : decode (wordsAtIp s) = .ok (i, rest))
    (hl : s.ip + i.operands.length ≤ s.config.addrMax.val) : NextInstr s i := ⟨⟨rest, h⟩, hl⟩

theorem enabled_boot (image : List Word) : Enabled (boot image) := ⟨rfl, rfl⟩

/-- The state of the instruction witnesses: `rb = 4`; addresses 9, 10 and 11 hold 30, 40 and 50. -/
def ws : State := { boot [1, 9, 10, 3, 2, 3, 11, 0, 99, 30, 40, 50] with rb := 4 }

theorem witness_DecodeInvertsEncode : (Instr.add (pos 1) (imm (-1)) (rel minW)).wellFormed = true ∧
    (Instr.input (rel maxW)).wellFormed = true ∧ Instr.halt.wellFormed = true := by decide

theorem witness_EncodeInvertsDecode : decode (10099 :: [4, 3]) = .ok (.halt, [4, 3]) ∧
    decode (1002 :: [4, 3, 4, 33]) = .ok (.multiply (pos 4) (imm 3) (pos 4), [33]) := by decide

theorem witness_UnusedDigitsIgnored : 0 ≤ (900001101 : Word).toInt ∧ 0 ≤ (1101 : Word).toInt ∧
    opcodeOfNumber ((900001101 : Word).toNat % 100) = some .add ∧
    (900001101 : Word).toNat % 10 ^ (Opcode.add.arity + 2) = (1101 : Word).toNat % 10 ^ (Opcode.add.arity + 2) := by decide

/-- Both sides of the equivalence, at a negative word and at the last number before Halt. -/
theorem witness_UnknownOpcodeExactly :
    (Enabled (boot [-1]) ∧ (boot [-1]).ip ≤ (boot [-1]).config.addrMax.val ∧ ((boot [-1]).mem.read 0).toInt < 0) ∧
    (Enabled (boot [98]) ∧ (boot [98]).ip ≤ (boot [98]).config.addrMax.val ∧
      ((boot [98]).mem.read 0).toNat % 100 ∉ [1, 2, 3, 4, 5, 6, 7, 8, 9, 99]) := by
  refine ⟨⟨enabled_boot _, by decide, by decide⟩, enabled_boot _, by decide, by decide⟩

theorem witness_UnknownModeFaults : Enabled (boot [30001]) ∧ (boot [30001]).ip ≤ (boot [30001]).config.addrMax.val ∧
    0 ≤ ((boot [30001]).mem.read 0).toInt ∧ opcodeOfNumber (((boot [30001]).mem.read 0).toNat % 100) = some .add ∧
    1 ≤ 3 ∧ 3 ≤ Opcode.add.arity ∧ 3 ≤ ((boot [30001]).mem.read 0).toNat / 10 ^ (3 + 1) % 10 := by
  refine ⟨enabled_boot _, ?_⟩
  decide

theorem witness_ImmediateTargetFaults : Enabled (boot [12001]) ∧ (boot [12001]).ip ≤ (boot [12001]).config.addrMax.val ∧
    0 ≤ ((boot [12001]).mem.read 0).toInt ∧ opcodeOfNumber (((boot [12001]).mem.read 0).toNat % 100) = some .add ∧
    Opcode.add.writeTarget = some 3 ∧ ((boot [12001]).mem.read 0).toNat / 10 ^ (3 + 1) % 10 = 1 ∧
    (∀ j, 1 ≤ j → j < 3 → ((boot [12001]).mem.read 0).toNat / 10 ^ (j + 1) % 10 ≤ 2) := by
  refine ⟨enabled_boot _, by decide, by decide, by decide, by decide, by decide, fun j h1 h2 => ?_⟩
  obtain rfl | rfl : j = 1 ∨ j = 2 := by omega
  · decide
  · decide

theorem witness_StepRunsDecoded : Enabled ws ∧ NextInstr ws (.add (pos 9) (pos 10) (pos 3)) :=
  ⟨⟨rfl, rfl⟩, next_of (rest := []) (by decide) (by decide)⟩

theorem witness_NoStepWhenStopped : State.reset.started = false ∧
    ({ boot [99] with runState := .halted } : State).started = true ∧ (Faulted (boot [0]) .unknownOpcode).started = true := by decide

/-- Both sides: a core with a step, and one at a stalling Input. -/
theorem witness_StepExactlyWhenRunning : Enabled (boot [99]) ∧ Stalls { boot [3, 5, 99] with inClosed := false, inShut := false } :=
  ⟨enabled_boot _, pos 5, 5, next_of (rest := [99, 0]) (by decide) (by decide), by unfold Fits; decide, targets_pos (by decide), rfl, rfl⟩

theorem witness_StepIsPseudocode : Enabled ws ∧ Enabled (boot [3, 5]) := ⟨⟨rfl, rfl⟩, enabled_boot _⟩

/-- The clause of the length check at `MAX - 2` and the clause of Halt at `MAX`. -/
theorem witness_LengthCheckFaults :
    (Enabled (atTop 2 1105) ∧ (atTop 2 1105).ip ≤ (atTop 2 1105).config.addrMax.val ∧
      decodeHead ((atTop 2 1105).mem.read (atTop 2 1105).ip) = .ok ⟨.jumpIfTrue, .immediate, .immediate, .position⟩ ∧
      wordMax < ((atTop 2 1105).ip : Int) + Opcode.jumpIfTrue.arity + 1) ∧
    (Enabled (atTop 0 99) ∧ (atTop 0 99).ip ≤ (atTop 0 99).config.addrMax.val ∧
      decodeHead ((atTop 0 99).mem.read (atTop 0 99).ip) = .ok ⟨.halt, .position, .position, .position⟩) := by
  refine ⟨⟨⟨rfl, rfl⟩, ?_⟩, ⟨rfl, rfl⟩, ?_⟩
  · decide
  · decide

theorem witness_LengthCheckInExec : (Instr.jumpIfTrue (imm 1) (imm 0)).wellFormed = true ∧
    Instr.jumpIfTrue (imm 1) (imm 0) ≠ .halt ∧ ¬ Fits (atTop 2 1105) (Instr.jumpIfTrue (imm 1) (imm 0)).length ∧
    Fits (atTop 3 1105) (Instr.jumpIfTrue (imm 1) (imm 0)).length := by
  refine ⟨by decide, by decide, by unfold Fits; decide, by unfold Fits; decide⟩

/-- `ip` one above `ADDR_MAX`, and an instruction word at `ADDR_MAX`. -/
theorem witness_FetchAboveCapacityFaults :
    (Enabled { bootWith sixteen [] [] with ip := 16 } ∧ sixteen.addrMax.val < 16) ∧
    (Enabled { bootWith sixteen [] [] with ip := 15, mem := [(15, 104)] } ∧ 15 ≤ sixteen.addrMax.val ∧
      decodeHead (Memory.read [(15, 104)] 15) = .ok ⟨.output, .immediate, .position, .position⟩ ∧
      sixteen.addrMax.val < 15 + Opcode.output.arity) := by
  refine ⟨⟨⟨rfl, rfl⟩, by decide⟩, ⟨rfl, rfl⟩, ?_⟩
  decide

/-- A negative second operand, and one just above `ADDR_MAX`. -/
theorem witness_AddressFaultsAreEager :
    ((Instr.jumpIfFalse (pos 0) (pos (-1))).operands = [pos 0] ++ pos (-1) :: [] ∧ Fits ws 3 ∧
      (∀ p ∈ [pos 0], AddressOk ws p) ∧ AddressFaults ws (pos (-1)) .negativeAddress) ∧
    AddressFaults (bootWith sixteen [] []) (pos 16) .addressRange := by
  refine ⟨⟨rfl, by unfold Fits; decide, ?_, ⟨-1, .inl ⟨rfl, by decide⟩, .inl ⟨by decide, rfl⟩⟩⟩,
    ⟨16, .inl ⟨rfl, by decide⟩, .inr ⟨by decide, rfl⟩⟩⟩
  intro p hp
  simp only [List.mem_singleton] at hp
  subst hp
  exact .inr ⟨0, .inl ⟨rfl, by decide⟩, by decide, by decide⟩

/-- A fault that changes nothing, and OutputClosed after a port that took the value. -/
theorem witness_FaultsArePrecise : (∃ t, step (boot [0]) = .next t ∧ t.runState = .faulted) ∧
    ∃ t, step { boot [104, 5, 99] with outPorts := [⟨[], false⟩, ⟨[], true⟩] } = .next t ∧ t.runState = .faulted ∧
      t.faultCause = some .outputClosed := by
  exact ⟨⟨_, rfl, by decide⟩, _, rfl, by decide, by decide⟩

/-- An exact result at `MAX`, and one above it under `Wrap`. -/
theorem witness_AddStoresSum :
    (ReadsAs ws (pos 9) 30 ∧ ReadsAs ws (imm (maxW - 30)) (maxW - 30) ∧ Targets ws (rel 1) 5 ∧ Fits ws 4 ∧
      NarrowsTo .wrap ((30 : Word).toInt + (maxW - 30).toInt) maxW) ∧
    NarrowsTo .wrap ((31 : Word).toInt + (maxW - 30).toInt) minW := by
  refine ⟨⟨reads_pos (by decide), reads_imm, targets_rel (by decide), by unfold Fits; decide, .inl (by decide)⟩,
    .inr ⟨by decide, rfl, 1, by decide⟩⟩

theorem witness_MultiplyStoresProduct :
    (ReadsAs ws (imm minW) minW ∧ ReadsAs ws (imm 1) 1 ∧ Targets ws (pos 0) 0 ∧ Fits ws 4 ∧
      NarrowsTo .wrap (minW.toInt * (1 : Word).toInt) minW) ∧
    NarrowsTo .wrap (minW.toInt * (-1 : Word).toInt) minW := by
  refine ⟨⟨reads_imm, reads_imm, targets_pos (by decide), by unfold Fits; decide, .inl (by decide)⟩,
    .inr ⟨by decide, rfl, 1, by decide⟩⟩

theorem witness_WrapIsModular : ws.config.overflowPolicy = .wrap ∧ ReadsAs ws (imm maxW) maxW ∧ ReadsAs ws (rel 5) 30 ∧
    Targets ws (pos maxW) 9223372036854775807 ∧ Fits ws 4 := by
  refine ⟨rfl, reads_imm, reads_rel (by decide), targets_pos (by decide), by unfold Fits; decide⟩

/-- A state under `Fault` whose `rb` is MAX. -/
def wf : State := { bootWith faultPolicy [99] [] with rb := maxW }

/-- One unit above the range for each of the three instructions. -/
theorem witness_OverflowFaults : wf.config.overflowPolicy = .fault ∧ ReadsAs wf (imm maxW) maxW ∧ ReadsAs wf (imm 1) 1 ∧
    ReadsAs wf (imm 2) 2 ∧ Targets wf (pos 5) 5 ∧ Fits wf 4 ∧ Fits wf 2 ∧
    ¬ (wordMin ≤ maxW.toInt + (1 : Word).toInt ∧ maxW.toInt + (1 : Word).toInt ≤ wordMax) ∧
    ¬ (wordMin ≤ maxW.toInt * (2 : Word).toInt ∧ maxW.toInt * (2 : Word).toInt ≤ wordMax) ∧
    ¬ (wordMin ≤ wf.rb.toInt + maxW.toInt ∧ wf.rb.toInt + maxW.toInt ≤ wordMax) := by
  refine ⟨rfl, reads_imm, reads_imm, reads_imm, targets_pos (by decide), by unfold Fits; decide, by unfold Fits; decide, ?_⟩
  decide

theorem witness_WrapNeverOverflows : (boot [0]).config.overflowPolicy = .wrap ∧
    ∃ t, step (boot [0]) = .next t ∧ t.runState = .faulted := ⟨rfl, _, rfl, by decide⟩

theorem witness_InputTakesHead : Targets (bootWith sixteen [3, 15] [7]) (pos 15) 15 ∧ Fits (bootWith sixteen [3, 15] [7]) 2 ∧
    (bootWith sixteen [3, 15] [7]).inQueue = 7 :: [] := by
  refine ⟨targets_pos (by decide), by unfold Fits; decide, rfl⟩

/-- Closed and open. -/
theorem witness_InputOnEmptyPort :
    (Targets ws (pos 15) 15 ∧ Fits ws 2 ∧ ws.inQueue = [] ∧ ws.inClosed = true) ∧
    (Targets { ws with inClosed := false, inShut := false } (pos 15) 15 ∧ Fits { ws with inClosed := false, inShut := false } 2 ∧
      ({ ws with inClosed := false, inShut := false } : State).inQueue = [] ∧ ({ ws with inClosed := false, inShut := false } : State).inClosed = false) := by
  refine ⟨⟨targets_pos (by decide), by unfold Fits; decide, rfl, rfl⟩, targets_pos (by decide), by unfold Fits; decide, rfl, rfl⟩

/-- With one port and with none. -/
theorem witness_OutputReachesEveryPort :
    (ReadsAs ws (pos 9) 30 ∧ Fits ws 2 ∧ ∀ p ∈ ws.outPorts, p.closed = false) ∧
    (ReadsAs { ws with outPorts := [] } (imm 5) 5 ∧ ∀ p ∈ ({ ws with outPorts := [] } : State).outPorts, p.closed = false) := by
  refine ⟨⟨reads_pos (by decide), by unfold Fits; decide, by decide⟩, reads_imm, by decide⟩

theorem witness_OutputStopsAtClosedPort : ReadsAs { ws with outPorts := [⟨[], false⟩, ⟨[], true⟩] } (imm 5) 5 ∧
    Fits { ws with outPorts := [⟨[], false⟩, ⟨[], true⟩] } 2 ∧
    ({ ws with outPorts := [⟨[], false⟩, ⟨[], true⟩] } : State).outPorts = [⟨[], false⟩] ++ ⟨[], true⟩ :: [] ∧
    (∀ q ∈ [(⟨[], false⟩ : OutPort)], q.closed = false) ∧ (⟨[], true⟩ : OutPort).closed = true := by
  refine ⟨reads_imm, by unfold Fits; decide, rfl, by decide, rfl⟩

/-- Taken to 0, not taken, and taken to -1. -/
theorem witness_JumpIfTrueGoes : ReadsAs ws (imm (-1)) (-1) ∧ ReadsAs ws (imm 0) 0 ∧ Fits ws 3 ∧
    ((-1 : Word).toInt ≠ 0 ∧ 0 ≤ (0 : Word).toInt) ∧ (0 : Word).toInt = 0 ∧ ((-1 : Word).toInt ≠ 0 ∧ (-1 : Word).toInt < 0) := by
  refine ⟨reads_imm, reads_imm, by unfold Fits; decide, ?_⟩
  decide

theorem witness_JumpIfFalseGoes : ReadsAs ws (imm 0) 0 ∧ ReadsAs ws (imm (-1)) (-1) ∧ ReadsAs ws (rel 5) 30 ∧ Fits ws 3 ∧
    ((0 : Word).toInt = 0 ∧ 0 ≤ (30 : Word).toInt) ∧ (-1 : Word).toInt ≠ 0 ∧ ((0 : Word).toInt = 0 ∧ (-1 : Word).toInt < 0) := by
  refine ⟨reads_imm, reads_imm, reads_rel (by decide), by unfold Fits; decide, ?_⟩
  decide

theorem witness_LessThanStoresComparison : ReadsAs ws (pos 9) 30 ∧ ReadsAs ws (rel 6) 40 ∧ Targets ws (rel (-4)) 0 ∧ Fits ws 4 :=
  ⟨reads_pos (by decide), reads_rel (by decide), targets_rel (by decide), by unfold Fits; decide⟩

theorem witness_EqualsStoresComparison : ReadsAs ws (pos 9) 30 ∧ ReadsAs ws (imm 30) 30 ∧ Targets ws (pos 9) 9 ∧ Fits ws 4 :=
  ⟨reads_pos (by decide), reads_imm, targets_pos (by decide), by unfold Fits; decide⟩

theorem witness_AdjustRelativeBaseAdds : (ReadsAs ws (imm (maxW - 4)) (maxW - 4) ∧ Fits ws 2 ∧
      NarrowsTo .wrap (ws.rb.toInt + (maxW - 4).toInt) maxW) ∧ NarrowsTo .wrap (ws.rb.toInt + (maxW - 3).toInt) minW := by
  refine ⟨⟨reads_imm, by unfold Fits; decide, .inl (by decide)⟩, .inr ⟨by decide, rfl, 1, by decide⟩⟩

theorem witness_HaltHalts : Enabled (atTop 0 3099) ∧ (atTop 0 3099).ip ≤ (atTop 0 3099).config.addrMax.val ∧
    0 ≤ ((atTop 0 3099).mem.read (atTop 0 3099).ip).toInt ∧ ((atTop 0 3099).mem.read (atTop 0 3099).ip).toNat % 100 = 99 := by
  refine ⟨⟨rfl, rfl⟩, ?_⟩
  decide

/-- V3's first step: the Multiply writes the word at 4, which the next fetch must read. -/
theorem witness_StoreSeenByNextFetch : Enabled (boot [1002, 4, 3, 4, 33]) ∧
    NextInstr (boot [1002, 4, 3, 4, 33]) (.multiply (pos 4) (imm 3) (pos 4)) ∧
    writeTargetOf (.multiply (pos 4) (imm 3) (pos 4)) = some (pos 4) ∧
    Targets (boot [1002, 4, 3, 4, 33]) (pos 4) ((boot [1002, 4, 3, 4, 33]).ip + (Instr.multiply (pos 4) (imm 3) (pos 4)).length + 0) ∧
    Fits (boot [1002, 4, 3, 4, 33]) (Instr.multiply (pos 4) (imm 3) (pos 4)).length ∧
    StoresValue (boot [1002, 4, 3, 4, 33]) (.multiply (pos 4) (imm 3) (pos 4)) 99 := by
  refine ⟨enabled_boot _, next_of (rest := []) (by decide) (by decide), rfl, targets_pos (by decide), by unfold Fits; decide,
    33, 3, reads_pos (by decide), reads_imm, .inl (by decide)⟩

/-- TS3's first step: the Add writes operand word 2 of the jump after it; and an Input that writes the word after it (TI9). -/
theorem witness_StoreSeenByNextFetch_operand :
    (NextInstr (boot [1101, 0, 99, 6, 1105, 1, 0]) (.add (imm 0) (imm 99) (pos 6)) ∧
      Targets (boot [1101, 0, 99, 6, 1105, 1, 0]) (pos 6) (0 + (Instr.add (imm 0) (imm 99) (pos 6)).length + 2) ∧
      StoresValue (boot [1101, 0, 99, 6, 1105, 1, 0]) (.add (imm 0) (imm 99) (pos 6)) 99) ∧
    (NextInstr (bootWith Config.specChoice [3, 2, 0] [99]) (.input (pos 2)) ∧
      Targets (bootWith Config.specChoice [3, 2, 0] [99]) (pos 2) (0 + (Instr.input (pos 2)).length + 0) ∧
      StoresValue (bootWith Config.specChoice [3, 2, 0] [99]) (.input (pos 2)) 99) := by
  refine ⟨⟨next_of (rest := []) (by decide) (by decide), targets_pos (by decide), 0, 99, reads_imm, reads_imm, .inl (by decide)⟩,
    next_of (rest := [0, 0]) (by decide) (by decide), targets_pos (by decide), rfl⟩

/-- A store, and a fault. -/
theorem witness_StoringFrame : (∃ t, exec (.equals (pos 9) (imm 30) (pos 0)) ws = .next t ∧ t.runState = .running) ∧
    ∃ t, exec (.add (pos 9) (pos (-1)) (pos 0)) ws = .next t ∧ t.runState = .faulted :=
  ⟨⟨_, rfl, by decide⟩, _, rfl, by decide⟩

theorem witness_InputFrame : (∃ t, exec (.input (pos 5)) (bootWith sixteen [] [7]) = .next t ∧ t.runState = .running) ∧
    ∃ t, exec (.input (pos 16)) (bootWith sixteen [] [7]) = .next t ∧ t.runState = .faulted :=
  ⟨⟨_, rfl, by decide⟩, _, rfl, by decide⟩

/-- Going on, faulting, and halting. -/
theorem witness_NonStoringFrame : (∃ t, exec (.jumpIfTrue (imm 1) (imm 7)) ws = .next t ∧ t.runState = .running) ∧
    (∃ t, exec (.output (pos (-1))) ws = .next t ∧ t.runState = .faulted) ∧
    ∃ t, exec .halt ws = .next t ∧ t.runState = .halted := ⟨⟨_, rfl, by decide⟩, ⟨_, rfl, by decide⟩, _, rfl, by decide⟩

theorem witness_OnlyAdjustWritesRb : ∃ t, step (boot [109, 5]) = .next t ∧ t.rb ≠ (boot [109, 5]).rb := ⟨_, rfl, by decide⟩

theorem witness_OnlyJumpsRedirect : ∃ t, step (boot [1105, 1, 7]) = .next t ∧ t.runState = .running := ⟨_, rfl, by decide⟩

theorem witness_PortsOnlyByInputAndOutput :
    (∃ t, step (bootWith sixteen [3, 5] [7]) = .next t ∧ t.inQueue ≠ [7]) ∧
    ∃ t, step (boot [104, 5]) = .next t ∧ t.outPorts ≠ (boot [104, 5]).outPorts := ⟨⟨_, rfl, by decide⟩, _, rfl, by decide⟩

theorem witness_OneWritePerStep : ∃ t, step ws = .next t ∧ t.mem.read 3 ≠ ws.mem.read 3 := ⟨_, rfl, by decide⟩

theorem witness_RunStateTransitions : (∃ t, step (boot [99]) = .next t ∧ t.runState = .halted) ∧
    (∃ t, step (boot [0]) = .next t ∧ t.runState = .faulted) ∧ ∃ t, step ws = .next t ∧ t.runState = .running :=
  ⟨⟨_, rfl, by decide⟩, ⟨_, rfl, by decide⟩, _, rfl, by decide⟩

/-- V5's first step: `mem_len` goes from 10 to 101. -/
theorem witness_MemoryLengthOnlyGrows : CoreInvariant (boot [1101, 5, 6, 100, 4, 50, 99, 0, 0, 0]) ∧
    ∃ t, step (boot [1101, 5, 6, 100, 4, 50, 99, 0, 0, 0]) = .next t ∧ t.memLen = 101 := ⟨by decide, _, rfl, by decide⟩

theorem witness_MemoryIsTotalMap : Memory.wf [(1, 5), (7, -1)] = true ∧
    (Memory.write (Memory.write [] 7 (-1)) 1 5).wf = true ∧
    ∀ x, Memory.read [(1, 5), (7, -1)] x = Memory.read (Memory.write (Memory.write [] 7 (-1)) 1 5) x :=
  ⟨by decide, by decide, fun _ => rfl⟩

theorem witness_StepKeepsInvariant : CoreInvariant ws ∧ ∃ t, step ws = .next t ∧ t.mem.read 3 = 70 := ⟨by decide, _, rfl, by decide⟩

theorem witness_EnvironmentKeepsInvariant : CoreInvariant State.reset ∧
    (∃ t, envStep (.load [1, 0, 2]) State.reset = .next t ∧ t.memLen = 3) ∧
    ∃ t, envStep (.appendIn 7) State.reset = .next t ∧ t.inQueue = [7] := ⟨by decide, ⟨_, rfl, by decide⟩, _, rfl, by decide⟩

/-- V7's run with the word delivered before the start. -/
theorem witness_ReachableStatesSatisfyInvariant :
    ∃ t, runMoves [.env (.load [3, 0, 99]), .env (.appendIn 5), .env .start, .core] (State.resetWith sixteen 1) = .next t ∧
      t.mem.read 0 = 5 := ⟨_, rfl, by decide⟩

/-- An image as long as the capacity, and an unattached port with nothing to seed. -/
theorem witness_StartState : ((List.replicate 16 (1 : Word)).length ≤ sixteen.addrMax.val + 1 ∧ (sixteen.inAttached = false → [(5 : Word)] = [])) ∧
    ([(99 : Word)].length ≤ sixteen.addrMax.val + 1 ∧ ({ sixteen with inAttached := false }.inAttached = false → ([] : List Word) = [])) := by
  refine ⟨⟨by decide, by decide⟩, by decide, fun _ => rfl⟩

/-- A terminal core under an append, and under a close. -/
theorem witness_OnlyResetLeavesTerminal : Ended { ws with runState := .halted, inClosed := false, inShut := false } ∧
    ({ ws with runState := .halted, inClosed := false, inShut := false } : State).started = true ∧
    (∃ t, move (.env (.appendIn 7)) { ws with runState := .halted, inClosed := false, inShut := false } = .next t) ∧
    Ended (Faulted ws .addressRange) ∧ ∃ t, move (.env .closeIn) (Faulted ws .addressRange) = .next t :=
  ⟨.inl rfl, rfl, ⟨_, rfl⟩, .inr rfl, _, rfl⟩

/-- A core after reset whose environment has closed both ports before start. -/
def shut : State := { State.reset with inClosed := true, inShut := true, outPorts := [⟨[], true⟩], outShut := [0] }

/-- A step of a core whose inbound port is closed, and the endpoints fixed anew after both ports were closed. -/
theorem witness_ClosedStaysClosed : (CoreInvariant ws ∧ ws.inClosed = true ∧ ∃ t, move .core ws = .next t) ∧
    (CoreInvariant shut ∧ shut.inShut = true ∧ 0 ∈ shut.outShut ∧
      ∃ t, move (.env (.fixEndpoints 2 true)) shut = .next t ∧ t.outPorts = [⟨[], true⟩, ⟨[], false⟩]) :=
  ⟨⟨by decide, rfl, _, rfl⟩, by decide, rfl, by decide, _, rfl, by decide⟩

theorem witness_FixEndpointsSetsPorts : shut.started = false ∧ shut.inQueue = [] ∧ ∀ p ∈ shut.outPorts, p.queue = [] := by decide

/-- A close on a Running core, and a load before start. -/
theorem witness_EnvironmentLeavesCoreState : (ws.started = true ∧ ws.runState = .running ∧ ∃ t, envStep (.closeOut 0) ws = .next t) ∧
    ∃ t, envStep (.load [7]) State.reset = .next t := ⟨⟨rfl, rfl, _, rfl⟩, _, rfl⟩

/-- R270: the endpoints can be fixed after a close, and a close of an unattached inbound port is not undone by attaching it. -/
theorem test_close_before_fixing :
    (match runMoves [.env (.fixEndpoints 1 false), .env .closeIn, .env (.closeOut 0), .env (.fixEndpoints 2 true)] State.reset with
      | .next t => some (t.inClosed, t.outPorts.map (·.closed))
      | .fault _ => none
      | .refused _ => none) = some (true, [true, false]) := by decide

theorem witness_ForbiddenMovesRefused : ws.started = true ∧ ws.inClosed = true := ⟨rfl, rfl⟩

theorem witness_ResultOfRun : ({ ws with runState := .halted } : State).runState = .halted ∧
    ((Faulted ws .addressRange).runState = .faulted ∧ (Faulted ws .addressRange).faultCause = some .addressRange) ∧
    ws.runState = .running := by decide

/-- The core outputs 30 while the environment takes the 5 that waits. -/
theorem witness_TakingOutputUnobserved :
    (∃ u, envStep (.takeOut 0) { ws with ip := 0, mem := [(0, 104), (1, 30)], outPorts := [⟨[5], false⟩] } = .next u ∧
      u.outPorts = [⟨[], false⟩]) ∧
    ∃ t, step { ws with ip := 0, mem := [(0, 104), (1, 30)], outPorts := [⟨[5], false⟩] } = .next t ∧
      t.outPorts = [⟨[5, 30], false⟩] := ⟨⟨_, rfl, by decide⟩, _, rfl, by decide⟩

/-- An open core at `ADD #1, #1, [9]`, `IN [8]`. -/
def listening : State := { boot [1101, 1, 1, 9, 3, 8] with inClosed := false, inShut := false }

/-- The second schedule delivers the first one's Word earlier, and one more. -/
theorem witness_DeliveryTimingIrrelevant :
    (∃ t, runMoves [.core, .env (.appendIn 7), .core] listening = .next t ∧ t.inQueue = []) ∧
    (∃ u, runMoves [.env (.appendIn 7), .core, .env (.appendIn 6), .core] listening = .next u ∧ u.inQueue = [6]) ∧
    coreSteps [.core, .env (.appendIn 7), .core] = coreSteps [.env (.appendIn 7), .core, .env (.appendIn 6), .core] ∧
    delivered [.env (.appendIn 7), .core, .env (.appendIn 6), .core] = delivered [.core, .env (.appendIn 7), .core] ++ [6] :=
  ⟨⟨_, rfl, by decide⟩, ⟨_, rfl, by decide⟩, by decide, by decide⟩

/-- Two cores, the first one's outbound port 0 connected to the second. -/
def pair : System := { cores := [{ ws with outPorts := [⟨[5, 6], false⟩] }, listening, ws], wires := [⟨0, 0, 1⟩] }

/-- A step of core 0 and a forward from 0 to 1, neither of which names core 2. -/
theorem witness_CoresShareNothing : (∃ z, systemStep (.core 0) pair = .next z ∧ z.cores[2]? = some ws) ∧
    (∃ z, systemStep (.forward 0) pair = .next z) ∧ pair.wires[0]? = some ⟨0, 0, 1⟩ := ⟨⟨_, rfl, by decide⟩, ⟨_, rfl⟩, rfl⟩

theorem witness_ForwardIsFifo : pair.wires[0]? = some ⟨0, 0, 1⟩ ∧
    pair.cores[0]? = some { ws with outPorts := [⟨[5, 6], false⟩] } ∧ pair.cores[1]? = some listening ∧
    [(⟨[5, 6], false⟩ : OutPort)][0]? = some ⟨[5, 6], false⟩ ∧ (⟨[5, 6], false⟩ : OutPort).queue = 5 :: [6] ∧
    listening.inClosed = false := ⟨rfl, rfl, rfl, rfl, rfl, rfl⟩

end Sys2Proof.Tests
end

section
/-! PROOFS. What each effect of an instruction leaves unchanged: the frames (10_state.md R26, R28, R33, R34; 60_exceptions.md R222),
one lemma per group of state elements, read off the cases of `Effect`. -/

namespace Sys2Proof.Machine

variable {s t : State} {i : Instr} {dst : Operand}

theorem Instr.isStoring.writeTargetOf_eq (h : Instr.isStoring i dst) : writeTargetOf i = some dst := by
  obtain ⟨a, b, rfl | rfl | rfl | rfl⟩ := h <;> rfl

/-- The parameters, the started bit, the inbound closed flag and the record of closes: no instruction writes them. -/
theorem Effect.keeps_config_and_flags (h : Effect s i t) : t.config = s.config ∧ t.started = s.started ∧ t.inClosed = s.inClosed ∧
    t.inShut = s.inShut ∧ t.outShut = s.outShut := by
  cases h <;> exact ⟨rfl, rfl, rfl, rfl, rfl⟩

theorem Effect.rb_eq_or_adjust (h : Effect s i t) : t.rb = s.rb ∨ ∃ a, i = .adjustRelativeBase a := by
  cases h with
  | adjusted a v r hf ha => exact .inr ⟨a, rfl⟩
  | _ => exact .inl rfl

theorem Effect.inQueue_eq_or_input (h : Effect s i t) : t.inQueue = s.inQueue ∨ ∃ dst, i = .input dst := by
  cases h with
  | input dst d v rest hq hf hd => exact .inr ⟨dst, rfl⟩
  | _ => exact .inl rfl

theorem Effect.outPorts_eq_or_output (h : Effect s i t) : t.outPorts = s.outPorts ∨ ∃ a, i = .output a := by
  cases h with
  | output a v hf ha ho => exact .inr ⟨a, rfl⟩
  | outputClosed a v pre post p hf ha hs ho hp => exact .inr ⟨a, rfl⟩
  | _ => exact .inl rfl

/-- The store is as it was, or one Word is written, at the address of the instruction's write target (R53, R69). -/
theorem Effect.mem_eq_or_write (h : Effect s i t) : (t.mem = s.mem ∧ t.memLen = s.memLen) ∨
    ∃ dst d v, writeTargetOf i = some dst ∧ Targets s dst d ∧ t.mem = s.mem.write d v ∧ t.memLen = max s.memLen (d + 1) := by
  have grown (d : Nat) : (if s.memLen ≤ d then d + 1 else s.memLen) = max s.memLen (d + 1) := by split <;> omega
  cases h with
  | stored dst d v hi hf hd => exact .inr ⟨dst, d, v, hi.writeTargetOf_eq, hd, rfl, grown d⟩
  | input dst d v rest hq hf hd => exact .inr ⟨dst, d, v, rfl, hd, rfl, grown d⟩
  | _ => exact .inl ⟨rfl, rfl⟩

/-- The run state goes one of three ways: it is kept with the cause, a fault is taken on a state that differs in the outbound
ports at most, or the instruction is Halt (R27, R28, R205, R222). -/
theorem Effect.runState_cases (h : Effect s i t) : (t.runState = s.runState ∧ t.faultCause = s.faultCause ∧ i ≠ .halt) ∨
    (∃ c ps, t = (s.setOutPorts ps).takeFault c) ∨ (i = .halt ∧ t = s.setHalted) := by
  cases h with
  | faulted c hc => exact .inr (.inl ⟨c, s.outPorts, rfl⟩)
  | outputClosed a v pre post p hf ha hs ho hp => exact .inr (.inl ⟨_, _, rfl⟩)
  | halted => exact .inr (.inr ⟨rfl, rfl⟩)
  | stored dst d v hi hf hd => exact .inl ⟨rfl, rfl, by rintro rfl; cases hi.writeTargetOf_eq⟩
  | jumped c g w hi ht => exact .inl ⟨rfl, rfl, by rcases hi with rfl | rfl <;> simp⟩
  | fellThrough c g hi hf => exact .inl ⟨rfl, rfl, by rcases hi with rfl | rfl <;> simp⟩
  | _ => exact .inl ⟨rfl, rfl, by simp⟩

/-- The inversion of `step` in the terms of the effects: a fault of the fetch, or an effect of the instruction at `ip`. -/
theorem step_effect (h : step s = .next t) : Enabled s ∧
    ((∃ c, fetchInstr s = .error c ∧ t = s.takeFault c) ∨ ∃ i, NextInstr s i ∧ Effect s i t) := by
  obtain ⟨he, hf | ⟨i, hi, hx⟩⟩ := step_next_iff.1 h
  · exact ⟨he, .inl hf⟩
  · exact ⟨he, .inr ⟨i, hi, exec_effect hx⟩⟩

/-- What a step does to the store: nothing, or one write at a legal address (R53, R69). -/
theorem step_mem_eq_or_write (h : step s = .next t) : (t.mem = s.mem ∧ t.memLen = s.memLen) ∨
    ∃ (d : Nat) (v : Word), LegalAddress s d ∧ t.mem = s.mem.write d v ∧ t.memLen = max s.memLen (d + 1) := by
  obtain ⟨_, ⟨c, _, rfl⟩ | ⟨i, _, hx⟩⟩ := step_effect h
  · exact .inl ⟨rfl, rfl⟩
  · rcases hx.mem_eq_or_write with hsame | ⟨dst, d, v, _, hd, hmem, hlen⟩
    · exact .inl hsame
    · exact .inr ⟨d, v, hd.2, hmem, hlen⟩

end Sys2Proof.Machine
end

section
/-! PROOFS. The invariant of a core is kept by every operation the step and the environment are made of, so by every event
(10_state.md R22 to R34). -/

namespace Sys2Proof.Machine

variable {s t : State}

/-! ### The clauses of the invariant that other proofs read -/

theorem CoreInvariant.inClosed_eq (h : CoreInvariant s) : s.inClosed = (s.inShut || !s.config.inAttached) := by
  obtain ⟨_, _, _, _, _, _, hin, _⟩ := h
  exact hin

theorem CoreInvariant.inQueue_nil (h : CoreInvariant s) (ha : s.config.inAttached = false) : s.inQueue = [] := by
  obtain ⟨_, _, _, _, _, hseed, _⟩ := h
  exact hseed ha

/-- Before start no outbound port holds a Word (R260, R272). -/
theorem CoreInvariant.outQueues_nil (h : CoreInvariant s) (hs : s.started = false) : ∀ p ∈ s.outPorts, p.queue = [] := by
  obtain ⟨_, _, _, _, _, _, _, _, hheld⟩ := h
  obtain ⟨_, _, _, hempty⟩ := hheld hs
  exact hempty

/-- An outbound port is closed exactly where its number is on record (R34). -/
theorem CoreInvariant.closed_iff (h : CoreInvariant s) {j : Nat} {p : OutPort} (hp : s.outPorts[j]? = some p) :
    p.closed = true ↔ j ∈ s.outShut := by
  obtain ⟨_, _, _, _, _, _, _, hout, _⟩ := h
  rw [closed_flags_iff.1 hout j p hp, List.contains_iff_mem]

/-- An unattached inbound port is closed, so an open one has an endpoint (R33). -/
theorem CoreInvariant.attached_of_open (h : CoreInvariant s) (ho : s.inClosed = false) : s.config.inAttached = true := by
  have hflags := h.inClosed_eq.symm.trans ho
  simp only [Bool.or_eq_false_iff, Bool.not_eq_false'] at hflags
  exact hflags.2

/-- Addresses from `mem_len` on were never written, so they read 0 (R31, R52). -/
theorem CoreInvariant.read_beyond (h : CoreInvariant s) {x : Nat} (hx : s.memLen ≤ x) : s.mem.read x = 0 := by
  obtain ⟨_, hbelow, _⟩ := h
  exact Memory.read_of_unlisted fun c hc => by have := hbelow c hc; omega

/-! ### The operations of the step -/

theorem CoreInvariant.store (h : CoreInvariant s) {d : Nat} (v : Word) (hd : LegalAddress s d) :
    CoreInvariant (s.store d v) := by
  obtain ⟨hwf, hbelow, hcap, hrest⟩ := h
  refine ⟨Memory.wf_write d v hwf, fun c hc => ?_, ?_, hrest⟩
  · rw [State.store_memLen]
    rcases Memory.mem_write.1 hc with ⟨rfl, _⟩ | ⟨hc, _⟩
    · dsimp only; split <;> omega
    · have := hbelow c hc
      split <;> omega
  · have := hd.2
    rw [State.store_memLen, State.store_config]
    split <;> omega

theorem CoreInvariant.setIp (h : CoreInvariant s) {p : Nat} (hs : s.started = true) (hp : (p : Int) ≤ wordMax) :
    CoreInvariant (s.setIp p) := by
  obtain ⟨hwf, hbelow, hcap, _, hcause, hseed, hin, hout, _⟩ := h
  exact ⟨hwf, hbelow, hcap, hp, hcause, hseed, hin, hout, by simp [hs]⟩

theorem CoreInvariant.advance (h : CoreInvariant s) {len : Nat} (hs : s.started = true) (hf : Fits s len) :
    CoreInvariant (s.advance len) := h.setIp hs hf

theorem CoreInvariant.setRb (h : CoreInvariant s) (v : Word) (hs : s.started = true) : CoreInvariant (s.setRb v) := by
  obtain ⟨hwf, hbelow, hcap, hip, hcause, hseed, hin, hout, _⟩ := h
  exact ⟨hwf, hbelow, hcap, hip, hcause, hseed, hin, hout, by simp [hs]⟩

/-- A Running core has no recorded cause, so neither has the Halted one (R28). -/
theorem CoreInvariant.setHalted (h : CoreInvariant s) (he : Enabled s) : CoreInvariant s.setHalted := by
  obtain ⟨hwf, hbelow, hcap, hip, hcause, hseed, hin, hout, _⟩ := h
  exact ⟨hwf, hbelow, hcap, hip, by simpa [he.2] using hcause, hseed, hin, hout, by simp [he.1]⟩

theorem CoreInvariant.takeFault (h : CoreInvariant s) (c : Cause) (hs : s.started = true) :
    CoreInvariant (s.takeFault c) := by
  obtain ⟨hwf, hbelow, hcap, hip, _, hseed, hin, hout, _⟩ := h
  exact ⟨hwf, hbelow, hcap, hip, by simp, hseed, hin, hout, by simp [hs]⟩

theorem CoreInvariant.setInQueue (h : CoreInvariant s) {q : List Word} (hq : s.config.inAttached = false → q = []) :
    CoreInvariant (s.setInQueue q) := by
  obtain ⟨hwf, hbelow, hcap, hip, hcause, _, hrest⟩ := h
  exact ⟨hwf, hbelow, hcap, hip, hcause, hq, hrest⟩

/-- Outbound ports may be replaced by ports with the same closed flags, with nothing on them before start. -/
theorem CoreInvariant.setOutPorts (h : CoreInvariant s) {ps : List OutPort}
    (hc : ps.map (·.closed) = s.outPorts.map (·.closed)) (hq : s.started = false → ∀ p ∈ ps, p.queue = []) :
    CoreInvariant (s.setOutPorts ps) := by
  obtain ⟨hwf, hbelow, hcap, hip, hcause, hseed, hin, hout, hheld⟩ := h
  have hlen : ps.length = s.outPorts.length := by simpa using congrArg List.length hc
  refine ⟨hwf, hbelow, hcap, hip, hcause, hseed, hin, ?_, fun hs => ?_⟩
  · rw [State.nOut, State.setOutPorts_outPorts, hc, hlen]
    exact hout
  · obtain ⟨hrun, hip0, hrb0, _⟩ := hheld hs
    exact ⟨hrun, hip0, hrb0, hq hs⟩

/-! ### The environment's operations -/

theorem CoreInvariant.resetWith (c : Config) (n : Nat) : CoreInvariant (State.resetWith c n) := by
  refine ⟨rfl, by simp [State.resetWith], by simp [State.resetWith], by simp [State.resetWith, wordMax],
    by simp [State.resetWith], fun _ => rfl, rfl, closed_flags_iff.2 fun j p hp => ?_, fun _ => ⟨rfl, rfl, rfl, ?_⟩⟩
  · simp only [State.resetWith, ← emptyPorts_nil, emptyPorts_getElem?] at hp
    rw [hp.2]
    rfl
  · intro p hp
    rw [List.eq_of_mem_replicate hp]

/-- Taking a Word from an outbound port changes no closed flag. -/
theorem map_closed_set_queue {ps : List OutPort} {j : Nat} {p : OutPort} (hp : ps[j]? = some p) (q : List Word) :
    (ps.set j { p with queue := q }).map (·.closed) = ps.map (·.closed) := by
  obtain ⟨hj, rfl⟩ := List.getElem?_eq_some_iff.1 hp
  have hflag : ps[j].closed = (ps.map (·.closed))[j]'(by simpa using hj) := by rw [List.getElem_map]
  rw [List.map_set, hflag, List.set_getElem_self]

/-- Taking a Word keeps the invariant: before start there is none to take (R34). -/
theorem CoreInvariant.takeOut (h : CoreInvariant s) {j : Nat} {p : OutPort} {v : Word} {rest : List Word}
    (hp : s.outPorts[j]? = some p) (hq : p.queue = v :: rest) :
    CoreInvariant (s.setOutPorts (s.outPorts.set j { p with queue := rest })) :=
  h.setOutPorts (map_closed_set_queue hp rest) fun hs => by
    simp [h.outQueues_nil hs p (List.mem_of_getElem? hp)] at hq

theorem CoreInvariant.load (h : CoreInvariant s) {image : List Word} (hl : image.length ≤ s.config.memCapacity) :
    CoreInvariant (s.load image) := by
  obtain ⟨_, _, _, hrest⟩ := h
  refine ⟨Memory.wf_ofImageAt 0 image, fun c hc => ?_, hl, hrest⟩
  have := Memory.ofImageAt_bounds hc
  rw [State.load_memLen]
  omega

theorem CoreInvariant.fixEndpoints (h : CoreInvariant s) (n : Nat) (b : Bool) : CoreInvariant (s.fixEndpoints n b) := by
  obtain ⟨hwf, hbelow, hcap, hip, hcause, _, _, _, hheld⟩ := h
  refine ⟨hwf, hbelow, hcap, hip, hcause, fun _ => rfl, rfl, closed_flags_iff.2 fun j p hp => ?_, fun hs => ?_⟩
  · rw [(emptyPorts_getElem?.1 hp).2]
    rfl
  · obtain ⟨hrun, hip0, hrb0, _⟩ := hheld hs
    refine ⟨hrun, hip0, hrb0, fun p hp => ?_⟩
    obtain ⟨j, hj⟩ := List.mem_iff_getElem?.1 hp
    rw [(emptyPorts_getElem?.1 hj).2]

theorem CoreInvariant.start (h : CoreInvariant s) : CoreInvariant s.start := by
  obtain ⟨hwf, hbelow, hcap, hip, hcause, hseed, hin, hout, _⟩ := h
  exact ⟨hwf, hbelow, hcap, hip, hcause, hseed, hin, hout, by simp⟩

theorem CoreInvariant.closeIn (h : CoreInvariant s) : CoreInvariant s.closeIn := by
  obtain ⟨hwf, hbelow, hcap, hip, hcause, hseed, _, hrest⟩ := h
  exact ⟨hwf, hbelow, hcap, hip, hcause, hseed, by simp, hrest⟩

theorem CoreInvariant.closeOut (h : CoreInvariant s) {j : Nat} {p : OutPort} (hp : s.outPorts[j]? = some p) :
    CoreInvariant (s.closeOut j p) := by
  obtain ⟨hwf, hbelow, hcap, hip, hcause, hseed, hin, hout, hheld⟩ := h
  refine ⟨hwf, hbelow, hcap, hip, hcause, hseed, hin, closed_flags_iff.2 fun k q hq => ?_, fun hs => ?_⟩
  · rw [State.closeOut_outPorts, List.getElem?_set] at hq
    split at hq
    · rename_i hjk
      obtain ⟨_, hq⟩ := Option.ite_none_right_eq_some.1 hq
      cases hq
      simp [hjk]
    · rename_i hjk
      simp [closed_flags_iff.1 hout k q hq, Ne.symm hjk]
  · obtain ⟨hrun, hip0, hrb0, hempty⟩ := hheld hs
    refine ⟨hrun, hip0, hrb0, fun q hq => ?_⟩
    rcases List.mem_or_eq_of_mem_set hq with hq | rfl
    · exact hempty q hq
    · exact hempty p (List.mem_of_getElem? hp)

/-! ### Every event -/

theorem Effect.keeps_invariant {i : Instr} (h : Effect s i t) (he : Enabled s) (hinv : CoreInvariant s) :
    CoreInvariant t := by
  have hs := he.1
  have held (ps : List OutPort) : s.started = false → ∀ p ∈ ps, p.queue = [] := by simp [hs]
  cases h with
  | faulted c hc => exact hinv.takeFault c hs
  | stored dst d v hi hf hd => exact (hinv.store v hd.2).advance hs hf
  | input dst d v rest hq hf hd =>
    have hrest : s.config.inAttached = false → rest = [] := fun ha => by simp [hinv.inQueue_nil ha] at hq
    exact ((hinv.setInQueue hrest).store v hd.2).advance hs hf
  | output a v hf ha ho => exact (hinv.setOutPorts (by simp) (held _)).advance hs hf
  | outputClosed a v pre post p hf ha hps ho hp => exact (hinv.setOutPorts (by simp [hps]) (held _)).takeFault _ hs
  | jumped c g w hi hw =>
    have := toNat_eq_toInt hw
    have := toInt_le_wordMax w
    exact hinv.setIp hs (by omega)
  | fellThrough c g hi hf => exact hinv.advance hs hf
  | adjusted a v r hf ha => exact (hinv.setRb r hs).advance hs hf
  | halted => exact hinv.setHalted he

theorem CoreInvariant.of_step (hinv : CoreInvariant s) (h : step s = .next t) : CoreInvariant t := by
  obtain ⟨he, ⟨c, _, rfl⟩ | ⟨i, _, hx⟩⟩ := step_effect h
  · exact hinv.takeFault c he.1
  · exact hx.keeps_invariant he hinv

theorem CoreInvariant.of_envStep {m : EnvMove} (hinv : CoreInvariant s) (h : envStep m s = .next t) : CoreInvariant t := by
  cases envStep_effect h with
  | reset => exact .resetWith _ _
  | load image hs hl => exact hinv.load hl
  | fixEndpoints n b hs hq hp => exact hinv.fixEndpoints n b
  | start => exact hinv.start
  | appendIn v hc => exact hinv.setInQueue fun ha => by simp [hinv.attached_of_open hc] at ha
  | closeIn => exact hinv.closeIn
  | takeOut j p v rest hp hq => exact hinv.takeOut hp hq
  | closeOut j p hp => exact hinv.closeOut hp

theorem CoreInvariant.of_move {m : Move} (hinv : CoreInvariant s) (h : move m s = .next t) : CoreInvariant t := by
  cases m with
  | core => exact hinv.of_step h
  | env e => exact hinv.of_envStep h

/-- What every event keeps, every schedule keeps. -/
theorem runMoves_keeps {P : State → Prop} (hP : ∀ m s t, P s → move m s = .next t → P t) (ms : List Move)
    (hs : P s) (h : runMoves ms s = .next t) : P t := by
  induction ms generalizing s with
  | nil => cases h; exact hs
  | cons m ms ih =>
    obtain ⟨u, hm, hrun⟩ := runMoves_cons.1 h
    exact ih (hP m s u hs hm) hrun

end Sys2Proof.Machine
end

section
/-! PROOFS. What the environment's moves leave of the core, and that a close is irreversible (70_reset_and_hazards.md R262, R270;
10_state.md R33, R34). -/

namespace Sys2Proof.Machine

variable {s t : State}

/-- The record of closes only grows under every event but reset (R33, R34). -/
theorem move_record_grows {m : Move} (h : move m s = .next t) (hreset : m ≠ .env .reset) :
    (s.inShut = true → t.inShut = true) ∧ ∀ j ∈ s.outShut, j ∈ t.outShut := by
  cases m with
  | core =>
    obtain ⟨_, _, hin, hout⟩ := step_closed_flags h
    simp [hin, hout]
  | env e =>
    cases envStep_effect h with
    | reset => exact absurd rfl hreset
    | closeIn => exact ⟨fun _ => rfl, fun _ hj => hj⟩
    | closeOut k p hp => exact ⟨id, fun j hj => by simp [hj]⟩
    | _ => exact ⟨id, fun _ hj => hj⟩

/-- Only fixing the endpoints changes whether an inbound endpoint is attached (R262). -/
theorem move_inAttached {m : Move} (h : move m s = .next t) :
    t.config.inAttached = s.config.inAttached ∨ ∃ n, m = .env (.fixEndpoints n t.config.inAttached) := by
  cases m with
  | core =>
    obtain ⟨_, ⟨c, _, rfl⟩ | ⟨i, _, hx⟩⟩ := step_effect h
    · exact .inl rfl
    · obtain ⟨hconfig, _⟩ := hx.keeps_config_and_flags
      exact .inl (by rw [hconfig])
  | env e =>
    cases envStep_effect h with
    | fixEndpoints n b hs hq hp => exact .inr ⟨n, rfl⟩
    | _ => exact .inl rfl

end Sys2Proof.Machine
end

section
/-! PROOFS. The environment takes Words from an outbound queue unobserved (10_state.md R34; 70_reset_and_hazards.md R270): only Output
looks at the outbound ports, and it appends to their tails. -/

namespace Sys2Proof.Machine

variable {s t : State} {ps : List OutPort}

/-- A sequence whose second part commutes with a map commutes with it. -/
theorem bind_eq_map_bind {ε α β : Type} {x : Except ε α} {f g : α → Except ε β} {k : β → β}
    (h : ∀ a, g a = (f a).map k) : (x >>= g) = (x >>= f).map k := by
  cases x with
  | error c => rfl
  | ok a => exact h a

/-- A meaning that computes alike on other outbound ports leaves those ports and otherwise answers the same. -/
theorem settle_setOutPorts {r q : Except Cause State} (hq : q = r.map (·.setOutPorts ps)) (h : settle s r = .next t) :
    settle (s.setOutPorts ps) q = .next (t.setOutPorts ps) := by
  subst hq
  cases r <;> cases h <;> rfl

/-! The fetch and the operands do not look at the outbound ports. -/

theorem nextInstr_setOutPorts {i : Instr} : NextInstr (s.setOutPorts ps) i ↔ NextInstr s i := .rfl

theorem fetchInstr_setOutPorts : fetchInstr (s.setOutPorts ps) = fetchInstr s := rfl

theorem resolveR_setOutPorts {a : Operand} : resolveR (s.setOutPorts ps) a = resolveR s a := rfl

theorem resolveW_setOutPorts {dst : Operand} : resolveW (s.setOutPorts ps) dst = resolveW s dst := rfl

theorem jumpTo_setOutPorts (s : State) (ps : List OutPort) (w : Word) :
    jumpTo (s.setOutPorts ps) w = (jumpTo s w).map (·.setOutPorts ps) := by
  unfold jumpTo
  split <;> rfl

/-- The two ways of a jump, whatever decides between them. -/
theorem jump_setOutPorts (s : State) (ps : List OutPort) (w : Word) (c : Prop) [Decidable c] :
    (if c then jumpTo (s.setOutPorts ps) w else .ok ((s.setOutPorts ps).advance 3)) =
      (if c then jumpTo s w else .ok (s.advance 3)).map (·.setOutPorts ps) := by
  split
  · exact jumpTo_setOutPorts s ps w
  · rfl

theorem execInput_setOutPorts {dst : Operand} (h : execInput dst s = .next t) :
    execInput dst (s.setOutPorts ps) = .next (t.setOutPorts ps) := by
  unfold execInput at h ⊢
  rw [resolveW_setOutPorts, State.setOutPorts_inQueue, State.setOutPorts_inClosed]
  split at h
  · cases h
    rfl
  · split at h
    · cases h
      rfl
    · cases hc : s.inClosed with
      | true =>
        rw [hc] at h
        cases h
        rfl
      | false =>
        rw [hc] at h
        cases h

/-- No instruction but Output reads or writes the outbound ports. -/
theorem exec_setOutPorts {i : Instr} (hi : ∀ a, i ≠ .output a) (h : exec i s = .next t) :
    exec i (s.setOutPorts ps) = .next (t.setOutPorts ps) := by
  cases i with
  | add a b dst => exact settle_setOutPorts (bind_eq_map_bind fun _ => bind_eq_map_bind fun _ => rfl) h
  | multiply a b dst => exact settle_setOutPorts (bind_eq_map_bind fun _ => bind_eq_map_bind fun _ => rfl) h
  | input dst => exact execInput_setOutPorts h
  | output a => exact absurd rfl (hi a)
  | jumpIfTrue c g => exact settle_setOutPorts (bind_eq_map_bind fun _ => jump_setOutPorts s ps _ _) h
  | jumpIfFalse c g => exact settle_setOutPorts (bind_eq_map_bind fun _ => jump_setOutPorts s ps _ _) h
  | lessThan a b dst => exact settle_setOutPorts (bind_eq_map_bind fun _ => rfl) h
  | equals a b dst => exact settle_setOutPorts (bind_eq_map_bind fun _ => rfl) h
  | adjustRelativeBase a => exact settle_setOutPorts (bind_eq_map_bind fun _ => bind_eq_map_bind fun _ => rfl) h
  | halt => cases h; rfl

theorem takeOut_next_iff {j : Nat} : envStep (.takeOut j) s = .next t ↔
    ∃ p v rest, s.outPorts[j]? = some p ∧ p.queue = v :: rest ∧
      t = s.setOutPorts (s.outPorts.set j { p with queue := rest }) := by
  constructor
  · intro h
    cases envStep_effect h with
    | takeOut j p v rest hp hq => exact ⟨p, v, rest, hp, hq, rfl⟩
  · rintro ⟨p, v, rest, hp, hq, rfl⟩
    simp [envStep, hp, hq]

/-- A fan-out appends to tails: with the head of a queue taken before it, it answers what it answers with the head taken after. -/
theorem broadcast_set_tail (w : Word) {j : Nat} {p : OutPort} {v : Word} {rest : List Word}
    (hp : ps[j]? = some p) (hq : p.queue = v :: rest) :
    ∃ p' rest', (broadcast w ps).1[j]? = some p' ∧ p'.queue = v :: rest' ∧
      broadcast w (ps.set j { p with queue := rest }) =
        ((broadcast w ps).1.set j { p' with queue := rest' }, (broadcast w ps).2) := by
  induction ps generalizing j with
  | nil => simp at hp
  | cons q ps ih =>
    cases j with
    | zero =>
      obtain rfl : q = p := by simpa using hp
      cases hc : q.closed with
      | true => exact ⟨q, rest, by simp [broadcast, hc], hq, by simp [broadcast, hc]⟩
      | false =>
        exact ⟨{ q with queue := q.queue ++ [w] }, rest ++ [w], by simp [broadcast, hc], by simp [hq], by simp [broadcast, hc]⟩
    | succ j =>
      cases hc : q.closed with
      | true => exact ⟨p, rest, by simpa [broadcast, hc] using hp, hq, by simp [broadcast, hc]⟩
      | false =>
        obtain ⟨p', rest', hp', hq', hset⟩ := ih (by simpa using hp)
        exact ⟨p', rest', by simpa [broadcast, hc] using hp', hq', by simp [broadcast, hc, hset]⟩

/-- Output after a take is the take after Output. -/
theorem execOutput_takeOut {a : Operand} {u : State} {j : Nat} (hu : envStep (.takeOut j) s = .next u)
    (h : execOutput a s = .next t) : ∃ v, execOutput a u = .next v ∧ envStep (.takeOut j) t = .next v := by
  obtain ⟨p, v, rest, hp, hq, rfl⟩ := takeOut_next_iff.1 hu
  unfold execOutput at h ⊢
  rw [resolveR_setOutPorts, State.setOutPorts_outPorts]
  cases hv : resolveR s a with
  | error c =>
    rw [hv] at h
    cases h
    exact ⟨_, rfl, takeOut_next_iff.2 ⟨p, v, rest, hp, hq, rfl⟩⟩
  | ok w =>
    obtain ⟨p', rest', hp', hq', hset⟩ := broadcast_set_tail w hp hq
    simp only [hv, hset] at h ⊢
    cases hall : (broadcast w s.outPorts).2 with
    | true =>
      rw [hall] at h
      cases h
      exact ⟨_, rfl, takeOut_next_iff.2 ⟨p', v, rest', hp', hq', rfl⟩⟩
    | false =>
      rw [hall] at h
      cases h
      exact ⟨_, rfl, takeOut_next_iff.2 ⟨p', v, rest', hp', hq', rfl⟩⟩

end Sys2Proof.Machine
end

section
/-! PROOFS. The statements of 10_state.md, in order of tier. -/

namespace Sys2Proof.Machine

/-- Settles O46: a fetch fault and every effect of an instruction are made of operations that keep the invariant. -/
theorem stepKeepsInvariant : Obligations.StepKeepsInvariant := fun _ _ hinv h => hinv.of_step h

/-- Settles O35: a storing instruction is no AdjustRelativeBase, Input, Output or Halt, so only its one write and the fault remain. -/
theorem storingFrame : Obligations.StoringFrame := by
  intro a b dst i s t hi h
  have hx := exec_effect h
  have htarget : writeTargetOf i = some dst := Instr.isStoring.writeTargetOf_eq ⟨a, b, hi⟩
  obtain ⟨hconfig, hstarted, hinClosed, hinShut, houtShut⟩ := hx.keeps_config_and_flags
  have hrb : t.rb = s.rb := hx.rb_eq_or_adjust.resolve_right (by rintro ⟨_, rfl⟩; simp at hi)
  have hqueue : t.inQueue = s.inQueue := hx.inQueue_eq_or_input.resolve_right (by rintro ⟨_, rfl⟩; simp at hi)
  have hports : t.outPorts = s.outPorts := hx.outPorts_eq_or_output.resolve_right (by rintro ⟨_, rfl⟩; simp at hi)
  refine ⟨hconfig, hrb, hqueue, hinClosed, hports, hstarted, hinShut, houtShut, fun x hne => ?_, ?_⟩
  · rcases hx.mem_eq_or_write with ⟨hmem, _⟩ | ⟨dst', d, v, hdst, hd, hmem, _⟩
    · rw [hmem]
    · obtain rfl : dst = dst' := Option.some.inj (htarget.symm.trans hdst)
      have hxd : x ≠ d := fun hxd => hne (targetAddress_ok_iff.2 (hxd ▸ hd))
      rw [hmem, Memory.read_write, if_neg hxd]
  · rcases hx.runState_cases with ⟨hrun, hcause, _⟩ | ⟨c, ps, rfl⟩ | ⟨rfl, _⟩
    · exact .inl ⟨hrun, hcause⟩
    · exact .inr ⟨rfl, fun _ => rfl, rfl, rfl⟩
    · cases htarget

/-- Settles O37: an instruction without a write target leaves the store, and the rest is the frame of every instruction. -/
theorem nonStoringFrame : Obligations.NonStoringFrame := by
  intro a b i s t hi h
  have hx := exec_effect h
  have htarget : writeTargetOf i = none := by rcases hi with rfl | rfl | rfl | rfl | rfl <;> rfl
  obtain ⟨hconfig, hstarted, hinClosed, hinShut, houtShut⟩ := hx.keeps_config_and_flags
  obtain ⟨hmem, hlen⟩ : t.mem = s.mem ∧ t.memLen = s.memLen :=
    hx.mem_eq_or_write.resolve_right (by rintro ⟨dst, d, v, hdst, _⟩; rw [htarget] at hdst; cases hdst)
  have hqueue : t.inQueue = s.inQueue := hx.inQueue_eq_or_input.resolve_right (by rintro ⟨_, rfl⟩; cases htarget)
  have hrb : i ≠ .adjustRelativeBase a → t.rb = s.rb := fun hne => hx.rb_eq_or_adjust.resolve_right (by
    rintro ⟨a', rfl⟩
    exact hne (by simpa using hi))
  have hports : i ≠ .output a → t.outPorts = s.outPorts := fun hne => hx.outPorts_eq_or_output.resolve_right (by
    rintro ⟨a', rfl⟩
    exact hne (by simpa using hi))
  refine ⟨fun x => by rw [hmem], hlen, hconfig, hqueue, hinClosed, hstarted, hinShut, houtShut, hrb, hports, ?_⟩
  rcases hx.runState_cases with hkept | ⟨c, ps, rfl⟩ | ⟨rfl, rfl⟩
  · exact .inl hkept
  · exact .inr (.inl ⟨rfl, rfl, rfl⟩)
  · exact .inr (.inr ⟨rfl, rfl, rfl, rfl⟩)

/-- Settles O38, from the frame of `rb`. -/
theorem onlyAdjustWritesRb : Obligations.OnlyAdjustWritesRb := by
  intro s t h hne
  obtain ⟨_, ⟨c, _, rfl⟩ | ⟨i, hi, hx⟩⟩ := step_effect h
  · exact absurd rfl hne
  · obtain ⟨a, rfl⟩ := hx.rb_eq_or_adjust.resolve_left hne
    exact ⟨a, hi⟩

/-- Settles O42: a fetch fault means that no Halt stands at `ip`; else the effect of the instruction at `ip` decides. -/
theorem runStateTransitions : Obligations.RunStateTransitions := by
  intro s t h
  obtain ⟨he, ⟨c, hc, rfl⟩ | ⟨i, hi, hexec⟩⟩ := step_next_iff.1 h
  · have hnot : ¬ NextInstr s .halt := fun hn => by rw [fetchInstr_ok_iff.2 hn] at hc; cases hc
    simp [hnot]
  · have hhalt : NextInstr s .halt ↔ i = .halt := ⟨fun hn => hi.unique hn, fun e => e ▸ hi⟩
    rcases (exec_effect hexec).runState_cases with ⟨hrun, hcause, hne⟩ | ⟨c, ps, rfl⟩ | ⟨rfl, rfl⟩
    · simp [hhalt, hrun, he.2, hcause, hne]
    · have hne : i ≠ .halt := by
        rintro rfl
        cases congrArg State.runState (Host.Outcome.next.inj hexec)
      simp [hhalt, hne]
    · simp [hi]

/-- Settles O43: a write above the old length skips addresses that were never written. -/
theorem memoryLengthOnlyGrows : Obligations.MemoryLengthOnlyGrows := by
  intro s t hinv h
  rcases step_mem_eq_or_write h with ⟨_, hlen⟩ | ⟨d, v, _, hmem, hlen⟩
  · exact ⟨by omega, fun x _ _ => by omega⟩
  · refine ⟨by omega, fun x hx hlt => ?_⟩
    rw [hmem, Memory.read_write, if_neg (by omega)]
    exact hinv.read_beyond hx

/-- Settles O47: every move of the environment is an operation that keeps the invariant. -/
theorem environmentKeepsInvariant : Obligations.EnvironmentKeepsInvariant := fun _ _ _ hinv h => hinv.of_envStep h

/-- Settles O48: the invariant holds at reset and every event keeps it. -/
theorem reachableStatesSatisfyInvariant : Obligations.ReachableStatesSatisfyInvariant := by
  intro c n ms t h
  exact runMoves_keeps (fun _ _ _ hinv hm => hinv.of_move hm) ms (.resetWith c n) h

/-- Settles O52: the record of closes only grows, and in the new state, as in the old, the invariant ties the closed flags to the
record and the attachment. -/
theorem closedStaysClosed : Obligations.ClosedStaysClosed := by
  intro m s t hinv h hreset
  have hinv' := hinv.of_move h
  obtain ⟨hin, hout⟩ := move_record_grows h hreset
  have shut_closed : t.inShut = true → t.inClosed = true := fun hs => by simp [hinv'.inClosed_eq, hs]
  refine ⟨fun hs => ⟨hin hs, shut_closed (hin hs)⟩, fun hc hattach => ?_,
    fun j hj => ⟨hout j hj, fun q hq => (hinv'.closed_iff hq).2 (hout j hj)⟩,
    fun j p q hp hc hq => (hinv'.closed_iff hq).2 (hout j ((hinv.closed_iff hp).1 hc))⟩
  rw [hinv.inClosed_eq, Bool.or_eq_true, Bool.not_eq_true'] at hc
  rcases hc with hs | hnone
  · exact shut_closed (hin hs)
  · have hnone' : t.config.inAttached = false := by
      rcases move_inAttached h with hsame | ⟨n, hm⟩
      · rw [hsame, hnone]
      · cases hb : t.config.inAttached with
        | false => rfl
        | true => rw [hb] at hm; rw [hattach n hm] at hnone; cases hnone
    simp [hinv'.inClosed_eq, hnone']

/-- Settles O55: the fetch and every instruction but Output do not see the outbound ports, and Output only appends to them. -/
theorem takingOutputUnobserved : Obligations.TakingOutputUnobserved := by
  intro j s u t hu h
  obtain ⟨p, v, rest, hp, hq, rfl⟩ := takeOut_next_iff.1 hu
  obtain ⟨he, ⟨c, hc, rfl⟩ | ⟨i, hi, hexec⟩⟩ := step_next_iff.1 h
  · exact ⟨_, step_next_iff.2 ⟨he, .inl ⟨c, fetchInstr_setOutPorts.trans hc, rfl⟩⟩,
      takeOut_next_iff.2 ⟨p, v, rest, hp, hq, rfl⟩⟩
  · by_cases ho : ∃ a, i = .output a
    · obtain ⟨a, rfl⟩ := ho
      obtain ⟨w, hw, htake⟩ := execOutput_takeOut hu hexec
      exact ⟨w, step_next_iff.2 ⟨he, .inr ⟨_, nextInstr_setOutPorts.2 hi, hw⟩⟩, htake⟩
    · have hports : t.outPorts = s.outPorts := (exec_effect hexec).outPorts_eq_or_output.resolve_right ho
      have hsame := exec_setOutPorts (ps := s.outPorts.set j { p with queue := rest }) (fun a hia => ho ⟨a, hia⟩) hexec
      refine ⟨_, step_next_iff.2 ⟨he, .inr ⟨i, nextInstr_setOutPorts.2 hi, hsame⟩⟩, ?_⟩
      exact takeOut_next_iff.2 ⟨p, v, rest, hports ▸ hp, hq, by rw [hports]⟩

/-- Settles O60, move by move. -/
theorem environmentLeavesCoreState : Obligations.EnvironmentLeavesCoreState := by
  intro m s t h hreset
  cases envStep_effect h with
  | reset => exact absurd rfl hreset
  | load image hs hl =>
    exact ⟨rfl, rfl, rfl, rfl, fun hne => absurd rfl (hne image), fun hs' => by simp [hs] at hs'⟩
  | fixEndpoints n b hs hq hp =>
    exact ⟨rfl, rfl, rfl, rfl, fun _ => ⟨rfl, rfl⟩, fun hs' => by simp [hs] at hs'⟩
  | start => exact ⟨rfl, rfl, rfl, rfl, fun _ => ⟨rfl, rfl⟩, fun _ => ⟨rfl, rfl, rfl, rfl, rfl⟩⟩
  | appendIn v hc => exact ⟨rfl, rfl, rfl, rfl, fun _ => ⟨rfl, rfl⟩, fun hs => ⟨rfl, rfl, rfl, rfl, hs⟩⟩
  | closeIn => exact ⟨rfl, rfl, rfl, rfl, fun _ => ⟨rfl, rfl⟩, fun hs => ⟨rfl, rfl, rfl, rfl, hs⟩⟩
  | takeOut j p v rest hp hq =>
    exact ⟨rfl, rfl, rfl, rfl, fun _ => ⟨rfl, rfl⟩, fun hs => ⟨rfl, rfl, rfl, by simp [State.nOut], hs⟩⟩
  | closeOut j p hp =>
    exact ⟨rfl, rfl, rfl, rfl, fun _ => ⟨rfl, rfl⟩, fun hs => ⟨rfl, rfl, rfl, by simp [State.nOut], hs⟩⟩

/-- Settles O45: the reset state of every Config and every number of ports, `State.reset` among them. -/
theorem resetSatisfiesInvariant : Obligations.ResetSatisfiesInvariant := ⟨.resetWith _ _, .resetWith⟩

/-- Settles O54, by the run state, and by the cause in Faulted. -/
theorem resultOfRun : Obligations.ResultOfRun := by
  intro s
  refine ⟨fun hs => by simp [State.result, hs], fun c hs hc => ?_, fun hs => by simp [State.result, hs]⟩
  have hcode : s.faultCode = c.code := by simp [State.faultCode, hc]
  simp only [State.result, hs, hcode]
  cases c <;> rfl

end Sys2Proof.Machine
end

section
/-! PROOFS. What the memory rules need beside the laws of the store: the canonical form is read off the reads (20_memory.md R55), how
a fetch fails and what it reads after a store (R56, R66, R73), and what a storing instruction that raises no fault answers (R69). -/

namespace Sys2Proof.Machine

/-! ### The canonical form -/

/-- The addresses listed in canonical form rise strictly. -/
theorem Memory.pairwise_of_wf {m : Memory} (h : m.wf = true) : m.Pairwise (InvImage (· < ·) Prod.fst) := by
  induction m with
  | nil => exact .nil
  | cons c m ih =>
    obtain ⟨_, hlt, hwf⟩ := Memory.wf_cons.1 h
    exact .cons hlt (ih hwf)

/-- In canonical form the pairs listed are the addresses that read other than the default, with what they read (R52). -/
theorem Memory.mem_iff_read {m : Memory} (h : m.wf = true) {c : Nat × Word} :
    c ∈ m ↔ c.2 ≠ memoryDefault ∧ m.read c.1 = c.2 := by
  induction m with
  | nil => simp [eq_comm]
  | cons d m ih =>
    obtain ⟨hd, hlt, hwf⟩ := Memory.wf_cons.1 h
    rw [Memory.read_cons, List.mem_cons, ih hwf]
    by_cases hc : d.1 = c.1
    · have hunlisted : Memory.read m c.1 = memoryDefault := Memory.read_of_unlisted fun e he => by
        have := hlt e he
        omega
      rw [if_pos hc, hunlisted]
      constructor
      · rintro (rfl | ⟨hne, heq⟩)
        · exact ⟨hd, rfl⟩
        · exact absurd heq.symm hne
      · exact fun ⟨_, heq⟩ => .inl (Prod.ext hc.symm heq.symm)
    · have hne : c ≠ d := fun hcd => hc (hcd ▸ rfl)
      simp [hc, hne]

/-! ### Fetching -/

variable {s : State}

/-- An enabled core whose fetch fails takes the fault. -/
theorem step_of_fetchInstr_error {c : Cause} (he : Enabled s) (hf : fetchInstr s = .error c) :
    step s = .next (s.takeFault c) := step_next_iff.2 ⟨he, .inl ⟨c, hf, rfl⟩⟩

theorem fetchHead_error_of_decodeHead {e : DecodeError} (hi : s.ip ≤ s.config.addrMax.val)
    (hd : decodeHead (s.mem.read s.ip) = .error e) : fetchHead s = .error (Cause.ofDecodeError e) := by
  have hc : checkAddress s (s.ip : Int) = .ok s.ip := checkAddress_ok_iff.2 ⟨⟨by omega, by omega⟩, rfl⟩
  simp [fetchHead, hc, hd]

/-- An `ip` above `ADDR_MAX` fails in phase 1 (R56). -/
theorem fetchInstr_of_ip_above (hi : s.config.addrMax.val < s.ip) : fetchInstr s = .error .addressRange := by
  have hc : checkAddress s (s.ip : Int) = .error .addressRange := checkAddress_error_iff.2 (.inr ⟨by omega, rfl⟩)
  simp [fetchInstr, fetchHead, hc]

/-- With the instruction word decoded and an operand word above `ADDR_MAX`, no instruction can stand at `ip`, and only phase 5
can have failed (R73). -/
theorem fetchInstr_of_operand_above {h : Head} (hh : fetchHead s = .ok h)
    (ha : s.config.addrMax.val < s.ip + h.op.arity) : fetchInstr s = .error .addressRange := by
  cases hf : fetchInstr s with
  | ok i =>
    simp only [fetchInstr, hh, bind_ok, bind_eq_ok] at hf
    obtain ⟨_, h1, _, h2, _, h3, _⟩ := hf
    rw [fetchOperand_ok_iff] at h1 h2 h3
    obtain ⟨hip, _⟩ := fetchHead_ok_iff.1 hh
    have := arity_le_three h.op
    omega
  | error c =>
    simp only [fetchInstr, hh, bind_ok, bind_eq_error, fetchOperand_error_iff] at hf
    rcases hf with ⟨_, _, rfl⟩ | ⟨_, _, ⟨_, _, rfl⟩ | ⟨_, _, ⟨_, _, rfl⟩ | ⟨_, _, hnone⟩⟩⟩
    · rfl
    · rfl
    · rfl
    · cases hnone

/-! ### The storing instructions -/

theorem lessThanWord_eq (x y : Word) : lessThanWord x y = if x.toInt < y.toInt then 1 else 0 := by
  simp [lessThanWord, truthWord]

/-- Equal Words are Words of equal signed value (R192). -/
theorem equalsWord_eq (x y : Word) : equalsWord x y = if x.toInt = y.toInt then 1 else 0 := by
  simp [equalsWord, truthWord, BitVec.toInt_inj]

/-- Only Input and the four instructions of format F3 have a write target (R69). -/
theorem eq_input_or_isStoring_of_writeTargetOf {i : Instr} {dst : Operand} (h : writeTargetOf i = some dst) :
    i = .input dst ∨ Instr.isStoring i dst := by
  cases i with
  | add a b o => cases h; exact .inr ⟨a, b, .inl rfl⟩
  | multiply a b o => cases h; exact .inr ⟨a, b, .inr (.inl rfl)⟩
  | input o => cases h; exact .inl rfl
  | lessThan a b o => cases h; exact .inr ⟨a, b, .inr (.inr (.inl rfl))⟩
  | equals a b o => cases h; exact .inr ⟨a, b, .inr (.inr (.inr rfl))⟩
  | _ => cases h

section Stores

variable {a b dst : Operand} {x y v : Word} {d : Nat}

/-- The arithmetic forms store their result where the policy gives one (R160, R162). -/
theorem settle_narrowed {f : Word → Word → Int} (hf : Fits s 4) (ha : ReadsAs s a x) (hb : ReadsAs s b y)
    (hd : Targets s dst d) (hv : NarrowsTo s.config.overflowPolicy (f x y) v) :
    settle s (resolveRRW s a b dst >>= fun q =>
      narrow s.config.overflowPolicy (f q.1 q.2.1) >>= fun r => .ok ((s.store q.2.2 r).advance 4)) =
      .next ((s.store d v).advance 4) := by
  rw [resolveRRW_ok_iff.2 ⟨hf, ha, hb, hd⟩, bind_ok, narrow_ok_iff.2 hv, bind_ok]
  rfl

/-- The comparing forms always store their result (R190, R192). -/
theorem settle_compared (f : Word → Word → Word) (hf : Fits s 4) (ha : ReadsAs s a x) (hb : ReadsAs s b y)
    (hd : Targets s dst d) :
    settle s (resolveRRW s a b dst >>= fun q => .ok ((s.store q.2.2 (f q.1 q.2.1)).advance 4)) =
      .next ((s.store d (f x y)).advance 4) := by
  rw [resolveRRW_ok_iff.2 ⟨hf, ha, hb, hd⟩, bind_ok]
  rfl

theorem exec_add_stores (hf : Fits s 4) (ha : ReadsAs s a x) (hb : ReadsAs s b y) (hd : Targets s dst d)
    (hv : NarrowsTo s.config.overflowPolicy (x.toInt + y.toInt) v) :
    exec (.add a b dst) s = .next ((s.store d v).advance 4) := settle_narrowed (f := exactSum) hf ha hb hd hv

theorem exec_multiply_stores (hf : Fits s 4) (ha : ReadsAs s a x) (hb : ReadsAs s b y) (hd : Targets s dst d)
    (hv : NarrowsTo s.config.overflowPolicy (x.toInt * y.toInt) v) :
    exec (.multiply a b dst) s = .next ((s.store d v).advance 4) := settle_narrowed (f := exactProduct) hf ha hb hd hv

theorem exec_input_stores {rest : List Word} (hf : Fits s 2) (hd : Targets s dst d) (hq : s.inQueue = v :: rest) :
    exec (.input dst) s = .next (((s.setInQueue rest).store d v).advance 2) := by
  simp [exec, execInput, resolveW_ok_iff.2 ⟨hf, hd⟩, hq]

theorem exec_lessThan_stores (hf : Fits s 4) (ha : ReadsAs s a x) (hb : ReadsAs s b y) (hd : Targets s dst d) :
    exec (.lessThan a b dst) s = .next ((s.store d (if x.toInt < y.toInt then 1 else 0)).advance 4) :=
  lessThanWord_eq x y ▸ settle_compared lessThanWord hf ha hb hd

theorem exec_equals_stores (hf : Fits s 4) (ha : ReadsAs s a x) (hb : ReadsAs s b y) (hd : Targets s dst d) :
    exec (.equals a b dst) s = .next ((s.store d (if x.toInt = y.toInt then 1 else 0)).advance 4) :=
  equalsWord_eq x y ▸ settle_compared equalsWord hf ha hb hd

/-- All five forms at once: the value is stored at the target, `ip` falls through, and but for the inbound queue nothing else
changes (R53, R69). -/
theorem StoresValue.exec_next {i : Instr} (hv : StoresValue s i v) (ht : writeTargetOf i = some dst) (hd : Targets s dst d)
    (hf : Fits s i.length) : ∃ q, exec i s = .next (((s.setInQueue q).store d v).advance i.length) := by
  cases i with
  | add a b o =>
    cases ht
    obtain ⟨x, y, ha, hb, hv⟩ := hv
    exact ⟨s.inQueue, exec_add_stores hf ha hb hd hv⟩
  | multiply a b o =>
    cases ht
    obtain ⟨x, y, ha, hb, hv⟩ := hv
    exact ⟨s.inQueue, exec_multiply_stores hf ha hb hd hv⟩
  | input o =>
    cases ht
    obtain ⟨rest, hq⟩ := List.head?_eq_some_iff.1 hv
    exact ⟨rest, exec_input_stores hf hd hq⟩
  | lessThan a b o =>
    cases ht
    obtain ⟨x, y, ha, hb, rfl⟩ := hv
    exact ⟨s.inQueue, exec_lessThan_stores hf ha hb hd⟩
  | equals a b o =>
    cases ht
    obtain ⟨x, y, ha, hb, rfl⟩ := hv
    exact ⟨s.inQueue, exec_equals_stores hf ha hb hd⟩
  | _ => cases ht

end Stores

end Sys2Proof.Machine
end

section
/-! PROOFS. The statements of 20_memory.md. -/

namespace Sys2Proof.Machine

/-- Settles O16: phase 1 fails above `ADDR_MAX`, and behind a decoded instruction word phase 5 does. -/
theorem fetchAboveCapacityFaults : Obligations.FetchAboveCapacityFaults := by
  intro s he
  refine ⟨fun hi => step_of_fetchInstr_error he (fetchInstr_of_ip_above hi), fun h hi hd ha => ?_⟩
  exact step_of_fetchInstr_error he (fetchInstr_of_operand_above (fetchHead_ok_iff.2 ⟨hi, hd⟩) ha)

/-- Settles O34: the next fetch starts behind the instruction, in the store after its write. -/
theorem storeSeenByNextFetch : Obligations.StoreSeenByNextFetch := by
  intro s i dst v k he hi ht hd hf hv
  obtain ⟨q, hexec⟩ := hv.exec_next ht hd hf
  have hlegal : s.ip + i.length + k ≤ s.config.addrMax.val := by exact_mod_cast hd.2.2
  refine ⟨_, step_next_iff.2 ⟨he, .inr ⟨i, hi, hexec⟩⟩, rfl, ?_, fun n h1 hn => ?_⟩
  · rintro rfl
    cases hdec : decodeHead v with
    | ok h => exact fetchHead_ok_iff.2 ⟨hlegal, by simpa using hdec⟩
    | error e => exact fetchHead_error_of_decodeHead hlegal (by simpa using hdec)
  · exact fetchOperand_ok_iff.2 (.inr ⟨hn, hlegal, by simp⟩)

/-- Settles O41: every changed address is the one written, and only the forms with a write target write. -/
theorem oneWritePerStep : Obligations.OneWritePerStep := by
  intro s t h x y hx
  obtain ⟨_, ⟨c, _, rfl⟩ | ⟨i, hi, heff⟩⟩ := step_effect h
  · exact absurd rfl hx
  · rcases heff.mem_eq_or_write with ⟨hmem, _⟩ | ⟨dst, d, v, ht, _, hmem, _⟩
    · exact absurd (by rw [hmem]) hx
    · have written (z : Nat) (hz : t.mem.read z ≠ s.mem.read z) : z = d := by
        by_contra hne
        exact hz (by rw [hmem, Memory.read_write, if_neg hne])
      refine ⟨fun hy => (written x hx).trans (written y hy).symm, i, hi, ?_⟩
      rcases eq_input_or_isStoring_of_writeTargetOf ht with hin | ⟨a, b, hform⟩
      · exact .inl ⟨dst, hin⟩
      · exact .inr ⟨a, b, dst, hform⟩

/-- Settles O44: stores that read alike list the same pairs, and both list them by rising address. -/
theorem memoryIsTotalMap : Obligations.MemoryIsTotalMap := by
  intro m n hm hn hread
  have same (c : Nat × Word) : c ∈ m ↔ c ∈ n := by rw [Memory.mem_iff_read hm, Memory.mem_iff_read hn, hread]
  exact (Memory.pairwise_of_wf hm).eq_of_mem_iff (Memory.pairwise_of_wf hn) same

end Sys2Proof.Machine
end

section
/-! PROOFS. The encoder against the decoder, digit by digit (30_encoding.md R91, R92, R111): a word decodes to the operation and the
modes of an instruction exactly when the instruction is well formed and its canonical word is the used digits of that word. -/

namespace Sys2Proof

open Machine

/-! ### The mode digits of a list of operands -/

/-- A mode digit at weight `10^(k+1)` above a number of `k + 1` digits makes a number of `k + 2` digits. -/
theorem add_digit_lt {c k : Nat} (m : Mode) (hc : c < 10 ^ (k + 1)) : c + m.digit * 10 ^ (k + 1) < 10 ^ (k + 1 + 1) := by
  have hm : m.digit * 10 ^ (k + 1) ≤ 2 * 10 ^ (k + 1) := Nat.mul_le_mul_right _ (Nat.le_of_lt_succ (digit_lt m))
  rw [Nat.pow_succ 10 (k + 1)]
  omega

/-- One more low digit of `v` is read as the digit above the others (R91). -/
theorem mod_eq_add_digit_iff {v c k : Nat} (m : Mode) (hc : c < 10 ^ (k + 1)) :
    v % 10 ^ (k + 1 + 1) = c + m.digit * 10 ^ (k + 1) ↔ v % 10 ^ (k + 1) = c ∧ decimalDigit v (k + 1) = m.digit := by
  have hpos : 0 < 10 ^ (k + 1) := Nat.pow_pos (by decide)
  have hsplit := Nat.div_mod_unique (a := v % 10 ^ (k + 1 + 1)) (c := c) (d := m.digit) hpos
  rw [Nat.pow_succ 10 (k + 1), Nat.mod_mul_right_div_self, Nat.mod_mul_right_mod, ← Nat.pow_succ, and_iff_left hc] at hsplit
  rw [and_comm, decimalDigit, hsplit, Nat.mul_comm, eq_comm]

/-- The mode digits above a number of `k + 1` digits fill one digit per operand. -/
theorem add_modeDigits_lt {c k : Nat} (os : List Operand) (hc : c < 10 ^ (k + 1)) :
    c + modeDigits k os < 10 ^ (k + 1 + os.length) := by
  induction os generalizing c k with
  | nil => exact hc
  | cons o os ih =>
    have h := ih (add_digit_lt o.mode hc)
    rwa [Nat.add_assoc, Nat.add_right_comm (k + 1)] at h

/-- The low digits of `v` are a number of `k + 1` digits with mode digits above it exactly when its lowest `k + 1` digits are that
number and each next digit is an operand's mode (R91). -/
theorem mod_eq_add_modeDigits_iff {v c k : Nat} (os : List Operand) (hc : c < 10 ^ (k + 1)) :
    v % 10 ^ (k + 1 + os.length) = c + modeDigits k os ↔
      v % 10 ^ (k + 1) = c ∧ ∀ j (hj : j < os.length), decimalDigit v (k + 1 + j) = os[j].mode.digit := by
  induction os generalizing c k with
  | nil => simp [modeDigits]
  | cons o os ih =>
    have h := ih (add_digit_lt o.mode hc)
    rw [mod_eq_add_digit_iff o.mode hc, Nat.add_assoc c, Nat.add_right_comm (k + 1)] at h
    simp only [List.length_cons, Nat.forall_lt_succ_left', List.getElem_cons_zero, List.getElem_cons_succ, ← and_assoc]
    rw [modeDigits, ← Nat.add_assoc (k + 1), h]
    simp only [Nat.add_zero, Nat.add_assoc, Nat.add_comm 1]

/-! ### The instruction word -/

theorem operands_length_le_three (i : Instr) : i.operands.length ≤ 3 := operands_length i ▸ arity_le_three i.opcode

/-- The canonical instruction word is the number of R111: it has at most five digits, so it is no more than a Word holds. -/
theorem encodeHead_toNat (i : Instr) : (encodeHead i).toNat = i.opcode.number + modeDigits 1 i.operands := by
  have hlt : i.opcode.number + modeDigits 1 i.operands < 10 ^ (2 + i.operands.length) :=
    add_modeDigits_lt (k := 1) i.operands (number_lt i.opcode)
  have hn := operands_length_le_three i
  have hp : 10 ^ (2 + i.operands.length) ≤ 10 ^ 5 := Nat.pow_le_pow_right (by decide) (by omega)
  rw [encodeHead, BitVec.toNat_ofNat, Nat.mod_eq_of_lt (by omega)]

/-- The canonical instruction word has no digit that the operation does not use (R96, R111). -/
theorem encodeHead_toNat_lt (i : Instr) : (encodeHead i).toNat < 10 ^ (i.operands.length + 2) := by
  rw [encodeHead_toNat, Nat.add_comm i.operands.length]
  exact add_modeDigits_lt (k := 1) i.operands (number_lt i.opcode)

theorem encodeHead_toInt_nonneg (i : Instr) : 0 ≤ (encodeHead i).toInt := by
  have hlt := encodeHead_toNat_lt i
  have hn := operands_length_le_three i
  have hp : 10 ^ (i.operands.length + 2) ≤ 10 ^ 5 := Nat.pow_le_pow_right (by decide) (by omega)
  rw [BitVec.toInt_eq_toNat_of_lt (by omega)]
  omega

/-- The low digits of a word are the canonical word of an instruction exactly when its opcode and its mode digits are the
instruction's (R91, R111). -/
theorem mod_eq_encodeHead_iff {v : Nat} {i : Instr} : v % 10 ^ (i.operands.length + 2) = (encodeHead i).toNat ↔
    opcodeOfNumber (v % 100) = some i.opcode ∧
      ∀ j (hj : j < i.operands.length), decimalDigit v (j + 2) = i.operands[j].mode.digit := by
  have hopcode : v % 100 = i.opcode.number ↔ opcodeOfNumber (v % 100) = some i.opcode :=
    ⟨fun h => h ▸ opcodeOfNumber_number i.opcode, number_of_opcodeOfNumber⟩
  have h := mod_eq_add_modeDigits_iff (v := v) (k := 1) i.operands (number_lt i.opcode)
  simp only [← hopcode, encodeHead_toNat, Nat.add_comm _ 2]
  exact h

/-! ### The head of an instruction -/

/-- The mode of operand `j + 1`; Position where the operation has no such operand, as in `Head`. -/
def Instr.mode (i : Instr) (j : Nat) : Mode := (i.operands[j]?.map (·.mode)).getD .position

/-- The operation and the modes of an instruction: what its instruction word holds. -/
def Instr.head (i : Instr) : Head := { op := i.opcode, m1 := i.mode 0, m2 := i.mode 1, m3 := i.mode 2 }

theorem Instr.mode_of_lt {i : Instr} {j : Nat} (hj : j < i.operands.length) : i.mode j = i.operands[j].mode := by
  simp [Instr.mode, hj]

theorem Instr.mode_of_le {i : Instr} {j : Nat} (hj : i.operands.length ≤ j) : i.mode j = .position := by
  simp [Instr.mode, hj]

/-- The write target of a well-formed instruction is not Immediate (R101). -/
theorem Instr.mode_ne_immediate_of_wellFormed {i : Instr} {j : Nat} (hi : i.wellFormed = true)
    (hj : i.opcode.writeTarget = some (j + 1)) : i.mode j ≠ .immediate := by
  cases i with
  | add a b dst | multiply a b dst | lessThan a b dst | equals a b dst | input dst => cases hj; exact isTarget_iff.1 hi
  | _ => cases hj

/-- The head of an instruction and the operand words of its encoding are the instruction (R90). -/
theorem assemble_head (i : Instr) (rest : List Word) :
    i.head.assemble ((encode i ++ rest).getD 1 0) ((encode i ++ rest).getD 2 0) ((encode i ++ rest).getD 3 0) = i := by
  cases i <;> rfl

/-- A mode the operation uses is read from its digit, and is no Immediate write target (R92, R101). -/
theorem decodeMode_of_digit {op : Opcode} {v k : Nat} {m : Mode} (hk : k ≤ op.arity) (hd : decimalDigit v (k + 1) = m.digit)
    (ht : op.writeTarget = some k → m ≠ .immediate) : decodeMode op v k = .ok m := by
  rw [decodeMode, if_neg (by omega), hd, modeOfDigit_digit]
  exact if_neg fun ⟨hw, hm⟩ => ht hw hm

/-- The decoder gives an operand of a well-formed instruction its mode exactly when the digit stands for it; it does not examine a
digit beyond the arity (R92, R96). -/
theorem decodeMode_eq_mode_iff {i : Instr} {v j : Nat} (hi : i.wellFormed = true) :
    decodeMode i.opcode v (j + 1) = .ok (i.mode j) ↔
      ∀ hj : j < i.operands.length, decimalDigit v (j + 2) = i.operands[j].mode.digit := by
  have harity := operands_length i
  by_cases hj : j < i.operands.length
  · rw [forall_prop_of_true hj, ← Instr.mode_of_lt hj]
    exact ⟨fun h => digit_of_decodeMode h (by omega),
      fun h => decodeMode_of_digit (by omega) h (Instr.mode_ne_immediate_of_wellFormed hi)⟩
  · rw [decodeMode_beyond (by omega), Instr.mode_of_le (by omega)]
    exact iff_of_true rfl fun h => absurd h hj

/-- A word decodes to the head of a well-formed instruction exactly when it is not negative and the digits that the operation uses
are the canonical word (R91, R96, R111). -/
theorem decodeHead_eq_head_iff {w : Word} {i : Instr} (hi : i.wellFormed = true) : decodeHead w = .ok i.head ↔
    0 ≤ w.toInt ∧ w.toNat % 10 ^ (i.operands.length + 2) = (encodeHead i).toNat := by
  simp only [decodeHead_ok_iff, mod_eq_encodeHead_iff, ← decodeMode_eq_mode_iff hi]
  refine and_congr_right fun _ => and_congr_right fun _ => ⟨fun ⟨h1, h2, h3⟩ j => ?_, fun h => ⟨h 0, h 1, h 2⟩⟩
  match j with
  | 0 => exact h1
  | 1 => exact h2
  | 2 => exact h3
  | j + 3 =>
    have hn := operands_length_le_three i
    exact (decodeMode_eq_mode_iff hi).2 fun hj => by omega

/-- The modes that the operation does not use decode as Position, so a decoded head is the head of what it assembles to. -/
theorem head_assemble {w : Word} {h : Head} (hw : decodeHead w = .ok h) (r1 r2 r3 : Word) : (h.assemble r1 r2 r3).head = h := by
  obtain ⟨_, _, h1, h2, h3⟩ := decodeHead_ok_iff.1 hw
  have unused {k : Nat} {m : Mode} (hm : decodeMode h.op w.toNat k = .ok m) (hk : h.op.arity < k) : m = .position := by
    rw [decodeMode_beyond hk] at hm
    exact (Except.ok.inj hm).symm
  have u1 := unused h1
  have u2 := unused h2
  have u3 := unused h3
  cases h with | mk op m1 m2 m3 =>
    cases op <;> simp_all [Opcode.arity, Head.assemble, Instr.head, Instr.mode, Instr.opcode, Instr.operands]

/-! ### The operand words -/

/-- Behind an encoding stand the Words that follow it (R90). -/
theorem drop_encode (i : Instr) (rest : List Word) : (encode i ++ rest).drop (1 + i.opcode.arity) = rest := by
  cases i <;> rfl

theorem assemble_raws (h : Head) (r1 r2 r3 : Word) :
    (h.assemble r1 r2 r3).operands.map (·.raw) = [r1, r2, r3].take h.op.arity := by
  cases h with | mk op m1 m2 m3 => cases op <;> rfl

/-- Up to three Words that a list holds are read from it one by one. -/
theorem take_getD {ws : List Word} {n : Nat} (h3 : n ≤ 3) (hn : n ≤ ws.length) :
    [ws.getD 0 0, ws.getD 1 0, ws.getD 2 0].take n = ws.take n := by
  refine List.ext_getElem (by simp only [List.length_take, List.length_cons, List.length_nil]; omega) fun j _ hj => ?_
  rw [List.length_take] at hj
  have hws : j < ws.length := by omega
  obtain rfl | rfl | rfl : j = 0 ∨ j = 1 ∨ j = 2 := by omega
  all_goals simp [hws]

end Sys2Proof
end

section
/-! PROOFS. What the digits of the instruction word decide: which digits a decode depends on, which word is which decode error
(30_encoding.md R95 to R101), and that a decode error is the fault of the step (60_exceptions.md R226). -/

namespace Sys2Proof

open Machine

/-! ### The digits the decoder reads -/

/-- The low digits of a number hold each digit of lower weight. -/
theorem decimalDigit_mod {v j n : Nat} (hj : j < n) : decimalDigit (v % 10 ^ n) j = decimalDigit v j := by
  obtain ⟨d, rfl⟩ := Nat.exists_eq_add_of_lt hj
  rw [decimalDigit, decimalDigit, Nat.add_assoc, Nat.pow_add, Nat.mod_mul_right_div_self, Nat.pow_succ, Nat.mod_mul_left_mod]

/-- A mode is read from the digits that the operation uses (R96). -/
theorem decodeMode_congr {op : Opcode} {v u : Nat} (h : v % 10 ^ (op.arity + 2) = u % 10 ^ (op.arity + 2)) (k : Nat) :
    decodeMode op v k = decodeMode op u k := by
  by_cases hk : op.arity < k
  · rw [decodeMode_beyond hk, decodeMode_beyond hk]
  · have hdigit : decimalDigit v (k + 1) = decimalDigit u (k + 1) := by
      rw [← decimalDigit_mod (n := op.arity + 2) (by omega), h, decimalDigit_mod (by omega)]
    rw [decodeMode, decodeMode, hdigit]

/-- Behind a known opcode the decoder reads the modes in order (R109). -/
theorem decodeHead_of_opcode {w : Word} {op : Opcode} (hw : 0 ≤ w.toInt) (ho : opcodeOfNumber (w.toNat % 100) = some op) :
    decodeHead w = (do
      let m1 ← decodeMode op w.toNat 1
      let m2 ← decodeMode op w.toNat 2
      let m3 ← decodeMode op w.toNat 3
      .ok { op := op, m1 := m1, m2 := m2, m3 := m3 }) := by
  rw [decodeHead, if_neg (by omega), ho]

/-! ### The decode errors -/

theorem decodeMode_ne_unknownOpcode {op : Opcode} {v k : Nat} : decodeMode op v k ≠ .error .unknownOpcode := by
  unfold decodeMode
  split
  · simp
  · split
    · simp
    · split <;> simp

/-- Only the sign and the last two digits raise UnknownOpcode (R95, R99). -/
theorem decodeHead_unknownOpcode_iff {w : Word} :
    decodeHead w = .error .unknownOpcode ↔ w.toInt < 0 ∨ w.toNat % 100 ∉ [1, 2, 3, 4, 5, 6, 7, 8, 9, 99] := by
  rw [← opcodeOfNumber_none_iff]
  by_cases hw : w.toInt < 0
  · simp [decodeHead, hw]
  · cases ho : opcodeOfNumber (w.toNat % 100) with
    | none => simp [decodeHead, hw, ho]
    | some op =>
      rw [decodeHead_of_opcode (by omega) ho]
      simp [bind_eq_error, decodeMode_ne_unknownOpcode, hw]

/-- The first operand that raises a decode error decides, where each operand before it has a mode or the same error (R109). -/
theorem decodeHead_error_of_mode {w : Word} {op : Opcode} {k : Nat} {e : DecodeError} (hw : 0 ≤ w.toInt)
    (ho : opcodeOfNumber (w.toNat % 100) = some op) (h1 : 1 ≤ k) (h3 : k ≤ 3)
    (hbefore : ∀ j, 1 ≤ j → j < k → decodeMode op w.toNat j = .error e ∨ ∃ m, decodeMode op w.toNat j = .ok m)
    (hk : decodeMode op w.toNat k = .error e) : decodeHead w = .error e := by
  rw [decodeHead_of_opcode hw ho]
  obtain rfl | rfl | rfl : k = 1 ∨ k = 2 ∨ k = 3 := by omega
  · rw [hk, bind_error]
  · obtain hm1 | ⟨m1, hm1⟩ := hbefore 1 (by omega) (by omega)
    · rw [hm1, bind_error]
    · rw [hm1, bind_ok, hk, bind_error]
  · obtain hm1 | ⟨m1, hm1⟩ := hbefore 1 (by omega) (by omega)
    · rw [hm1, bind_error]
    · obtain hm2 | ⟨m2, hm2⟩ := hbefore 2 (by omega) (by omega)
      · rw [hm1, bind_ok, hm2, bind_error]
      · rw [hm1, bind_ok, hm2, bind_ok, hk, bind_error]

/-- A digit 0 to 2 of an operand before the last one is a mode (R94). -/
theorem decodeMode_known {op : Opcode} {v k : Nat} (hk : k < op.arity) (hd : v / 10 ^ (k + 1) % 10 ≤ 2) :
    ∃ m, decodeMode op v k = .ok m := by
  have htarget : op.writeTarget ≠ some k := fun h => by have := writeTarget_eq_arity h; omega
  obtain ⟨m, hm⟩ : ∃ m : Mode, v / 10 ^ (k + 1) % 10 = m.digit := by
    generalize v / 10 ^ (k + 1) % 10 = d at hd
    match d with
    | 0 => exact ⟨.position, rfl⟩
    | 1 => exact ⟨.immediate, rfl⟩
    | 2 => exact ⟨.relative, rfl⟩
  exact ⟨m, decodeMode_of_digit hk.le hm fun h => absurd h htarget⟩

/-! ### The faults of the step -/

namespace Machine

variable {s t : State}

/-- An enabled core at a legal `ip` takes the decode error of the word there (R226). -/
theorem step_of_decode_error {e : DecodeError} (he : Enabled s) (hi : s.ip ≤ s.config.addrMax.val)
    (hd : decodeHead (s.mem.read s.ip) = .error e) : step s = .next (s.takeFault (Cause.ofDecodeError e)) :=
  step_of_fetchInstr_error he (fetchInstr_of_decode_error hi hd)

/-- At a legal `ip` a fetch raises UnknownOpcode only by the decoder: the operand words raise AddressRange alone. -/
theorem decodeHead_of_fetchInstr_unknownOpcode (hi : s.ip ≤ s.config.addrMax.val)
    (hf : fetchInstr s = .error .unknownOpcode) : decodeHead (s.mem.read s.ip) = .error .unknownOpcode := by
  cases hd : decodeHead (s.mem.read s.ip) with
  | error e =>
    rw [fetchInstr_of_decode_error hi hd] at hf
    cases e with
    | unknownOpcode => rfl
    | _ => cases hf
  | ok h =>
    simp [fetchInstr, fetchHead_ok_iff.2 ⟨hi, hd⟩, bind_eq_error, fetchOperand_error_iff] at hf

/-- No instruction raises UnknownOpcode (R211). -/
theorem Effect.ne_unknownOpcode {i : Instr} (h : Effect s i t) (hs : s.runState = .running) : t ≠ s.takeFault .unknownOpcode := by
  intro ht
  have hrun : t.runState = .faulted := by rw [ht, State.takeFault_runState]
  have hcause : t.faultCause = some .unknownOpcode := by rw [ht, State.takeFault_faultCause]
  cases h with
  | faulted c hc => obtain rfl : c = .unknownOpcode := Option.some.inj hcause; simp [isOperandCause] at hc
  | outputClosed a v pre post p hf ha hports ho hp => simp at hcause
  | halted => simp at hrun
  | _ => simp [hs] at hrun

end Machine

end Sys2Proof
end

section
/-! PROOFS. The statements of 30_encoding.md, in order of tier. -/

namespace Sys2Proof.Machine

/-- Settles O2: the canonical word decodes to the head of the instruction, which the raw values complete. -/
theorem decodeInvertsEncode : Obligations.DecodeInvertsEncode := by
  intro i rest hi
  have hhead : decodeHead (encodeHead i) = .ok i.head :=
    (decodeHead_eq_head_iff hi).2 ⟨encodeHead_toInt_nonneg i, Nat.mod_eq_of_lt (encodeHead_toNat_lt i)⟩
  exact decode_ok_iff.2 ⟨i.head, hhead, (assemble_head i rest).symm, (drop_encode i rest).symm⟩

/-- Settles O3: the decoded head is the head of the instruction, so its canonical word is the used digits. -/
theorem encodeInvertsDecode : Obligations.EncodeInvertsDecode := by
  intro w ws rest i h
  obtain ⟨g, hg, rfl, rfl⟩ := decode_ok_iff.1 h
  have hwf := assemble_wellFormed hg (ws.getD 0 0) (ws.getD 1 0) (ws.getD 2 0)
  have hhead := hg
  rw [← head_assemble hg (ws.getD 0 0) (ws.getD 1 0) (ws.getD 2 0)] at hhead
  obtain ⟨_, hdigits⟩ := (decodeHead_eq_head_iff hwf).1 hhead
  refine ⟨hwf, hdigits.symm, fun hlen => ?_⟩
  rw [assemble_operands_length] at hlen
  simp only [assemble_raws, List.getD_cons_succ, take_getD (arity_le_three g.op) hlen, Nat.add_comm 1, List.drop_succ_cons,
    List.take_append_drop]

/-- Settles O4: the two words have the same opcode and, operand by operand, the same mode. -/
theorem unusedDigitsIgnored : Obligations.UnusedDigitsIgnored := by
  intro w u op hw hu ho h
  have hopcode : w.toNat % 100 = u.toNat % 100 := by
    have hdvd : 100 ∣ 10 ^ (op.arity + 2) := pow_dvd_pow 10 (Nat.le_add_left 2 op.arity)
    rw [← Nat.mod_mod_of_dvd w.toNat hdvd, h, Nat.mod_mod_of_dvd u.toNat hdvd]
  rw [decodeHead_of_opcode hw ho, decodeHead_of_opcode hu (hopcode ▸ ho), decodeMode_congr h, decodeMode_congr h,
    decodeMode_congr h]

/-- Settles O5: the fault comes from the decoder, since neither the fetch of the operand words nor any instruction raises it. -/
theorem unknownOpcodeExactly : Obligations.UnknownOpcodeExactly := by
  intro s he hi
  rw [← decodeHead_unknownOpcode_iff]
  refine ⟨fun h => ?_, fun hd => step_of_decode_error he hi hd⟩
  obtain ⟨_, ⟨c, hc, hfault⟩ | ⟨i, _, hx⟩⟩ := step_effect h
  · obtain rfl : Cause.unknownOpcode = c := Option.some.inj (congrArg State.faultCause hfault)
    exact decodeHead_of_fetchInstr_unknownOpcode hi hc
  · exact absurd rfl (hx.ne_unknownOpcode he.2)

/-- Settles O6: operands before the last one are read operands, so no other decode error comes first. -/
theorem unknownModeFaults : Obligations.UnknownModeFaults := by
  intro s op k he hi hw ho h1 hk hd
  have hbefore (j : Nat) (_ : 1 ≤ j) (hj : j < k) := decodeMode_before_last (v := (s.mem.read s.ip).toNat) (hj.trans_le hk)
  exact step_of_decode_error he hi
    (decodeHead_error_of_mode hw ho h1 (hk.trans (arity_le_three op)) hbefore (decodeMode_unknown hk hd))

/-- Settles O7: the operands before the target have known modes, so the target decides. -/
theorem immediateTargetFaults : Obligations.ImmediateTargetFaults := by
  intro s op k he hi hw ho ht hd hbefore
  have hk : k = op.arity := writeTarget_eq_arity ht
  have h1 : 1 ≤ k := by cases op <;> cases ht <;> decide
  exact step_of_decode_error he hi (decodeHead_error_of_mode hw ho h1 (hk ▸ arity_le_three op)
    (fun j hj hjk => .inr (decodeMode_known (hk ▸ hjk) (hbefore j hj hjk))) (decodeMode_immediate_target ht hd))

/-- Settles O1: each word is decoded by evaluation. -/
theorem specWordsDecode : Obligations.SpecWordsDecode := by
  unfold Obligations.SpecWordsDecode
  decide

end Sys2Proof.Machine
end

section
/-! PROOFS. The equations of the step (40_step_and_operands.md R130, R142, R144; 70_reset_and_hazards.md R260), and that Input on an
empty open port is the one instruction without a next state (R141). -/

namespace Sys2Proof.Machine

variable {s : State}

/-! ### The step, by the gate and the fetch -/

/-- A shut gate is the stop it names. -/
theorem step_of_stepGate {f : Fault} (hg : stepGate s = some f) : step s = .fault f := by
  simp [step, hg]

/-- A step without a next state is a stop of the gate on a core that is not enabled. -/
theorem step_of_not_enabled (he : ¬ Enabled s) : ∃ f, step s = .fault f := by
  cases hg : stepGate s with
  | none => exact absurd (stepGate_none_iff.1 hg) he
  | some f => exact ⟨f, step_of_stepGate hg⟩

/-- An enabled core executes the instruction that stands at `ip`. -/
theorem step_of_nextInstr {i : Instr} (he : Enabled s) (hi : NextInstr s i) : step s = exec i s := by
  simp [step, stepGate_none_iff.2 he, fetchInstr_ok_iff.2 hi]

/-- A decoded instruction word and its operand words at legal addresses are an instruction, whose head it is. -/
theorem nextInstr_of_decodeHead {h : Head} (hd : decodeHead (s.mem.read s.ip) = .ok h)
    (hl : s.ip + h.op.arity ≤ s.config.addrMax.val) : ∃ i, NextInstr s i ∧ i.head = h := by
  refine ⟨_, ⟨⟨_, decode_ok_iff.2 ⟨h, hd, rfl, rfl⟩⟩, ?_⟩, head_assemble hd _ _ _⟩
  rwa [assemble_operands_length]

/-! ### Stalling -/

/-- Input stalls exactly on a good target with the inbound port empty and open (R141). -/
theorem exec_input_stall_iff {dst : Operand} : exec (.input dst) s = .fault .inputStall ↔
    ∃ d, Fits s 2 ∧ Targets s dst d ∧ s.inQueue = [] ∧ s.inClosed = false := by
  have hw (d : Nat) := resolveW_ok_iff (s := s) (o := dst) (d := d)
  simp only [exec, execInput, ← and_assoc, ← hw]
  cases resolveW s dst with
  | error c => simp
  | ok d => cases s.inQueue <;> cases s.inClosed <;> simp

/-- Every instruction answers a next state, or is an Input that stalls (R104, R141). -/
theorem exec_next_or_stall (i : Instr) (s : State) :
    (∃ t, exec i s = .next t) ∨ ((∃ dst, i = .input dst) ∧ exec i s = .fault .inputStall) := by
  cases i with
  | input dst =>
    simp only [exec, execInput]
    split
    · exact .inl ⟨_, rfl⟩
    · split
      · exact .inl ⟨_, rfl⟩
      · split
        · exact .inl ⟨_, rfl⟩
        · exact .inr ⟨⟨dst, rfl⟩, rfl⟩
  | output a =>
    refine .inl ?_
    simp only [exec, execOutput]
    split
    · exact ⟨_, rfl⟩
    · split <;> exact ⟨_, rfl⟩
  | halt => exact .inl ⟨_, rfl⟩
  | _ => exact .inl (settle_is_next s _)

end Sys2Proof.Machine
end

section
/-! PROOFS. Phases 4, 6 and 7 (R132): `exec` of a well-formed instruction is the length check, the eager addresses and the execute rule
of the pseudocode (40_step_and_operands.md R134, R138, R144). -/

namespace Sys2Proof.Machine

variable {s : State} {i : Instr} {a b o dst : Operand} {os : List Operand}

/-! ### The operands of the pseudocode -/

/-- Phase 6 of the pseudocode on a list of operands (R134). -/
def addressesOf (s : State) (os : List Operand) : Except Cause (List Int) :=
  Pseudocode.addresses s (os.map (·.mode.digit)) (os.map (·.raw))

/-- `val_k` of the pseudocode on a list of operands, `k` counting from 0 (R135). -/
def valueOf (s : State) (os : List Operand) (eas : List Int) : Nat → Word :=
  Pseudocode.value s (os.map (·.mode.digit)) (os.map (·.raw)) eas

/-- The pseudocode writes an effective address as an integer, -1 for the none of an Immediate. -/
def addressCode (ea : Option Nat) : Int :=
  match ea with
  | none => -1
  | some x => x

theorem check_eq_map_checkAddress (s : State) (x : Int) : Pseudocode.check s x = (checkAddress s x).map fun n : Nat => (n : Int) := by
  unfold Pseudocode.check checkAddress State.addrMax
  split
  · rfl
  · split
    · rfl
    · exact congrArg Except.ok (Int.toNat_of_nonneg (by omega)).symm

@[simp] theorem addressesOf_nil (s : State) : addressesOf s [] = .ok [] := rfl

/-- An operand that designates an integer has it checked (R56, R134). -/
theorem effectiveAddress_of_designated {x : Int} (hx : designated s o = some x) :
    effectiveAddress s o = (checkAddress s x).map some := by
  rw [effectiveAddress, hx]
  dsimp only
  cases checkAddress s x <;> rfl

/-- One pass of phase 6 is the machine's effective address. -/
theorem addressesOf_cons (s : State) (o : Operand) (os : List Operand) : addressesOf s (o :: os) =
    effectiveAddress s o >>= fun ea => addressesOf s os >>= fun eas => .ok (addressCode ea :: eas) := by
  have checked {x : Int} (hx : designated s o = some x) (k : Int → Except Cause (List Int)) :
      (Pseudocode.check s x >>= k) = effectiveAddress s o >>= fun ea => k (addressCode ea) := by
    rw [check_eq_map_checkAddress, effectiveAddress_of_designated hx]
    cases checkAddress s x <;> rfl
  obtain ⟨m, r⟩ := o
  cases m with
  | position => exact checked rfl _
  | immediate => rfl
  | relative => exact checked rfl _

/-- The first value is the resolved value of the first operand (R135). -/
theorem valueOf_zero {ea : Option Nat} (h : effectiveAddress s o = .ok ea) (os : List Operand) (eas : List Int) :
    valueOf s (o :: os) (addressCode ea :: eas) 0 = operandValue s o ea := by
  obtain ⟨m, r⟩ := o
  have some_of_checked {x : Int} (hx : designated s ⟨m, r⟩ = some x) : ∃ n, ea = some n := by
    rw [effectiveAddress_of_designated hx] at h
    cases hc : checkAddress s x with
    | error c => rw [hc] at h; cases h
    | ok n => rw [hc] at h; cases h; exact ⟨n, rfl⟩
  cases m with
  | position => obtain ⟨n, rfl⟩ := some_of_checked rfl; rfl
  | immediate => cases h; rfl
  | relative => obtain ⟨n, rfl⟩ := some_of_checked rfl; rfl

/-- The effective address of a write target in a legal mode is its target address (R58). -/
theorem effectiveAddress_of_isTarget (ho : o.isTarget = true) : effectiveAddress s o = (targetAddress s o).map some := by
  cases hd : designated s o with
  | none => exact absurd (designated_eq_none_iff.1 hd) (isTarget_iff.1 ho)
  | some x => rw [effectiveAddress_of_designated hd, targetAddress, hd]

/-! ### The operand phases of an instruction -/

/-- Phases 4 and 6 of an instruction whose words are fetched: the length check, from which Halt is exempt, then every address. -/
def operandPhases (s : State) (i : Instr) : Except Cause (List Int) :=
  (if i = .halt then .ok () else lengthCheck s i.length) >>= fun _ => addressesOf s i.operands

theorem operandPhases_of_operands (hi : i.operands = o :: os) :
    operandPhases s i = lengthCheck s (os.length + 2) >>= fun _ => addressesOf s (o :: os) := by
  have hne : i ≠ .halt := by rintro rfl; cases hi
  have hlen : i.length = os.length + 2 := by rw [Instr.length, hi, List.length_cons]; omega
  rw [operandPhases, if_neg hne, hlen, hi]

theorem resolveR_eq_map_operandPhases (hi : i.operands = [a]) :
    resolveR s a = (operandPhases s i).map fun eas => valueOf s i.operands eas 0 := by
  rw [operandPhases_of_operands hi, hi]
  simp only [resolveR, addressesOf_cons, addressesOf_nil, bind_ok, List.length_nil]
  cases lengthCheck s 2 with
  | error c => rfl
  | ok u =>
    cases ha : effectiveAddress s a with
    | error c => rfl
    | ok ea => exact congrArg Except.ok (valueOf_zero ha _ _).symm

theorem resolveW_eq_map_operandPhases (hi : i.operands = [dst]) (ht : dst.isTarget = true) :
    resolveW s dst = (operandPhases s i).map fun eas => (eas.getD 0 0).toNat := by
  have hc : checkTargetMode dst = .ok () := checkTargetMode_ok_iff.2 ht
  rw [operandPhases_of_operands hi]
  simp only [resolveW, hc, addressesOf_cons, addressesOf_nil, bind_ok, List.length_nil,
    effectiveAddress_of_isTarget ht]
  cases lengthCheck s 2 with
  | error c => rfl
  | ok u => cases targetAddress s dst <;> rfl

theorem resolveRR_eq_map_operandPhases (hi : i.operands = [a, b]) :
    resolveRR s a b = (operandPhases s i).map fun eas => (valueOf s i.operands eas 0, valueOf s i.operands eas 1) := by
  rw [operandPhases_of_operands hi, hi]
  simp only [resolveRR, addressesOf_cons, addressesOf_nil, bind_ok, List.length_cons, List.length_nil]
  cases lengthCheck s 3 with
  | error c => rfl
  | ok u =>
    cases ha : effectiveAddress s a with
    | error c => rfl
    | ok ea =>
      cases hb : effectiveAddress s b with
      | error c => rfl
      | ok eb => exact congrArg Except.ok (congrArg₂ Prod.mk (valueOf_zero ha [b] [_]).symm (valueOf_zero hb [] []).symm)

theorem resolveRRW_eq_map_operandPhases (hi : i.operands = [a, b, dst]) (ht : dst.isTarget = true) :
    resolveRRW s a b dst = (operandPhases s i).map fun eas =>
      (valueOf s i.operands eas 0, valueOf s i.operands eas 1, (eas.getD 2 0).toNat) := by
  have hc : checkTargetMode dst = .ok () := checkTargetMode_ok_iff.2 ht
  rw [operandPhases_of_operands hi, hi]
  simp only [resolveRRW, hc, addressesOf_cons, addressesOf_nil, bind_ok, List.length_cons,
    List.length_nil, effectiveAddress_of_isTarget ht]
  cases lengthCheck s 4 with
  | error c => rfl
  | ok u =>
    cases ha : effectiveAddress s a with
    | error c => rfl
    | ok ea =>
      cases hb : effectiveAddress s b with
      | error c => rfl
      | ok eb =>
        cases targetAddress s dst with
        | error c => rfl
        | ok d =>
          exact congrArg Except.ok (congrArg₂ Prod.mk (valueOf_zero ha [b, dst] [_, _]).symm
            (congrArg (·, d) (valueOf_zero hb [dst] [addressCode (some d)]).symm))

/-! ### The execute rules of the pseudocode -/

theorem result_eq_narrow (s : State) (x : Int) : Pseudocode.result s x = narrow s.config.overflowPolicy x := by
  unfold Pseudocode.result narrow
  simp only [fits_iff]
  cases s.config.overflowPolicy <;> rfl

theorem put_eq_store_advance (s : State) (d : Int) (v : Word) (len : Nat) :
    Pseudocode.put s d v len = (s.store d.toNat v).advance len := by
  have grown : max s.memLen (d.toNat + 1) = if s.memLen ≤ d.toNat then d.toNat + 1 else s.memLen := by split <;> omega
  rw [Pseudocode.put, grown]
  rfl

/-- The pseudocode's loop carries the ports already served along, and flags a closed port where the machine flags none (R172). -/
theorem fanOut_eq_broadcast (v : Word) (served todo : List OutPort) :
    Pseudocode.fanOut v served todo = (served ++ (broadcast v todo).1, !(broadcast v todo).2) := by
  induction todo generalizing served with
  | nil => simp [Pseudocode.fanOut, broadcast]
  | cons p ps ih =>
    simp only [Pseudocode.fanOut, broadcast]
    split <;> simp [ih]

variable {val : Nat → Word} {d : Int}

theorem execute_add : Pseudocode.execute s 1 val d = settle s (narrow s.config.overflowPolicy (exactSum (val 0) (val 1)) >>=
    fun r => .ok ((s.store d.toNat r).advance 4)) := by
  simp only [← result_eq_narrow, ← put_eq_store_advance, exactSum]
  cases h : Pseudocode.result s ((val 0).toInt + (val 1).toInt) <;>
    simp [Pseudocode.execute, h, settle, Faulted, State.takeFault]

theorem execute_multiply : Pseudocode.execute s 2 val d =
    settle s (narrow s.config.overflowPolicy (exactProduct (val 0) (val 1)) >>=
      fun r => .ok ((s.store d.toNat r).advance 4)) := by
  simp only [← result_eq_narrow, ← put_eq_store_advance, exactProduct]
  cases h : Pseudocode.result s ((val 0).toInt * (val 1).toInt) <;>
    simp [Pseudocode.execute, h, settle, Faulted, State.takeFault]

theorem execute_adjustRelativeBase : Pseudocode.execute s 9 val d =
    settle s (narrow s.config.overflowPolicy (exactSum s.rb (val 0)) >>= fun r => .ok ((s.setRb r).advance 2)) := by
  simp only [← result_eq_narrow, exactSum]
  cases h : Pseudocode.result s (s.rb.toInt + (val 0).toInt) <;>
    simp [Pseudocode.execute, h, settle, Faulted, State.takeFault, State.advance, State.setIp, State.setRb]

theorem execute_lessThan : Pseudocode.execute s 7 val d =
    .next ((s.store d.toNat (lessThanWord (val 0) (val 1))).advance 4) := by
  rw [lessThanWord_eq, ← put_eq_store_advance]
  rfl

theorem execute_equals : Pseudocode.execute s 8 val d =
    .next ((s.store d.toNat (equalsWord (val 0) (val 1))).advance 4) := by
  rw [equalsWord_eq, ← put_eq_store_advance]
  rfl

/-- A taken jump writes the target, which as a Word that is not negative has one reading (R183). -/
theorem settle_jumpTo (s : State) (w : Word) : settle s (jumpTo s w) =
    if w.toInt < 0 then .next (Faulted s .negativeAddress) else .next { s with ip := w.toInt.toNat } := by
  unfold jumpTo
  split
  · rfl
  · rename_i hw
    rw [toInt_toNat_eq (by omega)]
    rfl

theorem execute_jumpIfTrue : Pseudocode.execute s 5 val d =
    settle s (if val 0 ≠ 0 then jumpTo s (val 1) else .ok (s.advance 3)) := by
  rw [apply_ite (settle s), settle_jumpTo]
  simp only [ne_eq, ← toInt_eq_zero_iff]
  rfl

theorem execute_jumpIfFalse : Pseudocode.execute s 6 val d =
    settle s (if val 0 = 0 then jumpTo s (val 1) else .ok (s.advance 3)) := by
  rw [apply_ite (settle s), settle_jumpTo]
  simp only [← toInt_eq_zero_iff]
  rfl

theorem execute_input_cons {v : Word} {rest : List Word} (hq : s.inQueue = v :: rest) :
    Pseudocode.execute s 3 val d = .next (((s.setInQueue rest).store d.toNat v).advance 2) := by
  simp only [Pseudocode.execute, hq]
  exact congrArg (fun t : State => Host.Outcome.next (t.setInQueue rest)) (put_eq_store_advance s d v 2)

theorem execute_input_nil (hq : s.inQueue = []) : Pseudocode.execute s 3 val d =
    if s.inClosed then .next (s.takeFault .inputExhausted) else .fault .inputStall := by
  simp [Pseudocode.execute, hq, Faulted, State.takeFault]

theorem execute_output : Pseudocode.execute s 4 val d =
    if (broadcast (val 0) s.outPorts).2 then .next ((s.setOutPorts (broadcast (val 0) s.outPorts).1).advance 2)
    else .next ((s.setOutPorts (broadcast (val 0) s.outPorts).1).takeFault .outputClosed) := by
  have hfan := fanOut_eq_broadcast (val 0) [] s.outPorts
  generalize broadcast (val 0) s.outPorts = b at hfan ⊢
  obtain ⟨ps, served⟩ := b
  cases served <;>
    simp [Pseudocode.execute, hfan, Faulted, State.takeFault, State.setOutPorts, State.advance, State.setIp]

/-! ### The instruction -/

/-- Phase 7 of the pseudocode on what the operand phases answer: the execute rule, or the fault raised. -/
def finish (s : State) (i : Instr) (phases : Except Cause (List Int)) : Host.Outcome State Fault Refusal :=
  match phases with
  | .error c => .next (Faulted s c)
  | .ok eas =>
    Pseudocode.execute s i.opcode.number (valueOf s i.operands eas)
      (eas.getD (Pseudocode.writeTarget i.opcode.number - 1) 0)

/-- A meaning made of a resolution and a rule: with the resolution read off the operand phases, the rule is all that counts. -/
theorem settle_resolved {α : Type} {r : Except Cause α} {g : List Int → α} {k : α → Except Cause State}
    (hr : r = (operandPhases s i).map g) (hk : ∀ eas, finish s i (.ok eas) = settle s (k (g eas))) :
    settle s (r >>= k) = finish s i (operandPhases s i) := by
  rw [hr]
  cases operandPhases s i with
  | error c => rfl
  | ok eas => exact (hk eas).symm

theorem execInput_eq_finish (ht : dst.isTarget = true) :
    execInput dst s = finish s (.input dst) (operandPhases s (.input dst)) := by
  rw [execInput, resolveW_eq_map_operandPhases (i := .input dst) rfl ht]
  cases operandPhases s (.input dst) with
  | error c => rfl
  | ok eas =>
    cases hq : s.inQueue with
    | nil => exact (execute_input_nil (val := valueOf s [dst] eas) hq).symm
    | cons v rest => exact (execute_input_cons (val := valueOf s [dst] eas) hq).symm

theorem execOutput_eq_finish : execOutput a s = finish s (.output a) (operandPhases s (.output a)) := by
  rw [execOutput, resolveR_eq_map_operandPhases (i := .output a) rfl]
  cases operandPhases s (.output a) with
  | error c => rfl
  | ok eas => exact (execute_output (d := eas.getD 0 0)).symm

/-- The instruction is the pseudocode's phases 4, 6 and 7 (R140, R144). -/
theorem exec_eq_finish (hi : i.wellFormed = true) : exec i s = finish s i (operandPhases s i) := by
  cases i with
  | add a b dst => exact settle_resolved (resolveRRW_eq_map_operandPhases rfl hi) fun _ => execute_add
  | multiply a b dst => exact settle_resolved (resolveRRW_eq_map_operandPhases rfl hi) fun _ => execute_multiply
  | input dst => exact execInput_eq_finish hi
  | output a => exact execOutput_eq_finish
  | jumpIfTrue c g => exact settle_resolved (resolveRR_eq_map_operandPhases rfl) fun eas => execute_jumpIfTrue (d := eas.getD 0 0)
  | jumpIfFalse c g => exact settle_resolved (resolveRR_eq_map_operandPhases rfl) fun eas => execute_jumpIfFalse (d := eas.getD 0 0)
  | lessThan a b dst => exact settle_resolved (resolveRRW_eq_map_operandPhases rfl hi) fun _ => execute_lessThan
  | equals a b dst => exact settle_resolved (resolveRRW_eq_map_operandPhases rfl hi) fun _ => execute_equals
  | adjustRelativeBase a => exact settle_resolved (resolveR_eq_map_operandPhases rfl) fun eas =>
    execute_adjustRelativeBase (d := eas.getD 0 0)
  | halt => rfl

/-- A fault of the operand phases is the fault of the instruction. -/
theorem exec_of_operandPhases_error {c : Cause} (hi : i.wellFormed = true) (h : operandPhases s i = .error c) :
    exec i s = .next (s.takeFault c) := by
  rw [exec_eq_finish hi, h]
  rfl

/-- The lowest operand with a bad address is the fault of phase 6 (R134). -/
theorem addressesOf_error {pre post : List Operand} {c : Cause} (hpre : ∀ p ∈ pre, AddressOk s p) (ho : AddressFaults s o c) :
    addressesOf s (pre ++ o :: post) = .error c := by
  induction pre with
  | nil => rw [List.nil_append, addressesOf_cons, effectiveAddress_error_iff.2 ho, bind_error]
  | cons p pre ih =>
    obtain ⟨ea, hp⟩ := effectiveAddress_ok_of_addressOk (hpre p List.mem_cons_self)
    rw [List.cons_append, addressesOf_cons, hp, bind_ok, ih fun q hq => hpre q (List.mem_cons_of_mem p hq), bind_error]

end Sys2Proof.Machine
end

section
/-! PROOFS. Phases 1 to 3 and 5 of the pseudocode (R109, R144): its decode is the machine's, mode digit by mode digit, and its operand
words are those of the instruction that stands at `ip`. -/

namespace Sys2Proof.Machine

variable {s : State} {i : Instr}

/-! ### Decoding -/

/-- The mode digits that the operation of a head uses, in order. -/
def headDigits (h : Head) : List Nat := ([h.m1, h.m2, h.m3].map Mode.digit).take h.op.arity

theorem headDigits_head (i : Instr) : headDigits i.head = i.operands.map (·.mode.digit) := by cases i <;> rfl

theorem arity_eq_map_opcodeOfNumber (n : Nat) : Pseudocode.arity n = (opcodeOfNumber n).map Opcode.arity := by
  cases hn : opcodeOfNumber n with
  | none =>
    have hunknown := (opcodeOfNumber_none_iff n).1 hn
    simp only [List.mem_cons, List.not_mem_nil, not_or] at hunknown
    simp [Pseudocode.arity, hunknown]
  | some op =>
    obtain rfl := number_of_opcodeOfNumber hn
    cases op <;> rfl

theorem eq_writeTarget_number_iff (op : Opcode) {k : Nat} (hk : 1 ≤ k) :
    k = Pseudocode.writeTarget op.number ↔ op.writeTarget = some k := by
  cases op <;> simp [Pseudocode.writeTarget, Opcode.number, Opcode.writeTarget] <;> omega

/-- One pass of the pseudocode's loop is the machine's reading of that mode (R109). -/
theorem modes_succ {op : Opcode} {v k left : Nat} (h1 : 1 ≤ k) (hk : k ≤ op.arity) :
    Pseudocode.modes v op.number k (left + 1) = (decodeMode op v k).mapError Cause.ofDecodeError >>= fun m =>
      Pseudocode.modes v op.number (k + 1) left >>= fun ms => .ok (m.digit :: ms) := by
  simp only [Pseudocode.modes, decodeMode, if_neg (Nat.not_lt.2 hk), eq_writeTarget_number_iff op h1, decimalDigit]
  generalize v / 10 ^ (k + 1) % 10 = g
  match g with
  | 0 => simp [modeOfDigit, Except.mapError, Mode.digit]
  | 1 =>
    simp only [modeOfDigit]
    by_cases ht : op.writeTarget = some k <;> simp [ht, Except.mapError, Mode.digit, Cause.ofDecodeError]
  | 2 => simp [modeOfDigit, Except.mapError, Mode.digit]
  | g + 3 => simp [modeOfDigit, Except.mapError, Cause.ofDecodeError]

/-- The pseudocode's loop reads the modes of the decoded head, and raises the decoder's error (R109, R226). -/
theorem modes_eq_decodeHead {w : Word} {op : Opcode} (hw : 0 ≤ w.toInt) (ho : opcodeOfNumber (w.toNat % 100) = some op) :
    Pseudocode.modes w.toNat op.number 1 op.arity =
      ((decodeHead w).mapError Cause.ofDecodeError).map headDigits := by
  rw [decodeHead_of_opcode hw ho]
  have hdigits (m1 m2 m3 : Mode) : headDigits ⟨op, m1, m2, m3⟩ = [m1.digit, m2.digit, m3.digit].take op.arity := rfl
  have h3 := arity_le_three op
  obtain hn | hn | hn | hn : op.arity = 0 ∨ op.arity = 1 ∨ op.arity = 2 ∨ op.arity = 3 := by omega
  all_goals rw [hn] at hdigits ⊢
  · rw [decodeMode_beyond (k := 1) (by omega), decodeMode_beyond (k := 2) (by omega), decodeMode_beyond (k := 3) (by omega)]
    exact congrArg Except.ok (hdigits _ _ _).symm
  · rw [modes_succ (by omega) (by omega), decodeMode_beyond (k := 2) (by omega), decodeMode_beyond (k := 3) (by omega)]
    cases decodeMode op w.toNat 1 with
    | error e => rfl
    | ok m1 => exact congrArg Except.ok (hdigits m1 _ _).symm
  · rw [modes_succ (by omega) (by omega), modes_succ (by omega) (by omega), decodeMode_beyond (k := 3) (by omega)]
    cases decodeMode op w.toNat 1 with
    | error e => rfl
    | ok m1 =>
      cases decodeMode op w.toNat 2 with
      | error e => rfl
      | ok m2 => exact congrArg Except.ok (hdigits m1 m2 _).symm
  · rw [modes_succ (by omega) (by omega), modes_succ (by omega) (by omega), modes_succ (by omega) (by omega)]
    cases decodeMode op w.toNat 1 with
    | error e => rfl
    | ok m1 =>
      cases decodeMode op w.toNat 2 with
      | error e => rfl
      | ok m2 =>
        cases decodeMode op w.toNat 3 with
        | error e => rfl
        | ok m3 => exact congrArg Except.ok (hdigits m1 m2 m3).symm

/-- The pseudocode's `decode()` is the machine's fetch of the instruction word (R109). -/
theorem decode_eq_map_fetchHead (s : State) :
    Pseudocode.decode s = (fetchHead s).map fun h => (h.op.number, h.op.arity, headDigits h) := by
  unfold Pseudocode.decode fetchHead
  rw [check_eq_map_checkAddress]
  cases checkAddress s s.ip with
  | error c => rfl
  | ok x =>
    simp only [Except.map, bind_ok, Int.toNat_natCast, arity_eq_map_opcodeOfNumber]
    generalize s.mem.read x = w
    by_cases hw : w.toInt < 0
    · simp [decodeHead, hw, Cause.ofDecodeError]
    · rw [if_neg hw, toInt_toNat_eq (by omega)]
      cases ho : opcodeOfNumber (w.toNat % 100) with
      | none => simp [decodeHead, hw, ho, Cause.ofDecodeError]
      | some op =>
        simp only [Option.map_some]
        rw [number_of_opcodeOfNumber ho, modes_eq_decodeHead (by omega) ho]
        cases hd : decodeHead w with
        | error e => rfl
        | ok h =>
          obtain ⟨_, hop, _⟩ := decodeHead_ok_iff.1 hd
          obtain rfl : op = h.op := Option.some.inj (ho.symm.trans hop)
          rfl

/-! ### The operand words -/

theorem check_of_legal {x : Nat} (hx : x ≤ s.config.addrMax.val) : Pseudocode.check s x = .ok (x : Int) := by
  rw [check_eq_map_checkAddress, checkAddress_ok_iff.2 ⟨⟨by omega, by omega⟩, rfl⟩]
  rfl

theorem check_of_above {x : Nat} (hx : s.config.addrMax.val < x) : Pseudocode.check s x = .error .addressRange := by
  rw [check_eq_map_checkAddress, checkAddress_error_iff.2 (.inr ⟨by omega, rfl⟩)]
  rfl

/-- Phase 5 reads the operand words where all of them lie at legal addresses. -/
theorem raws_of_legal {k n : Nat} (h : s.ip + k + n ≤ s.config.addrMax.val + 1) :
    Pseudocode.raws s k n = .ok ((List.range' k n).map fun j => s.mem.read (s.ip + j)) := by
  induction n generalizing k with
  | zero => rfl
  | succ n ih =>
    rw [Pseudocode.raws, ← Nat.cast_add, check_of_legal (by omega), bind_ok, ih (by omega), bind_ok]
    rfl

/-- Phase 5 fails by AddressRange where an operand word lies above `ADDR_MAX` (R132). -/
theorem raws_of_above {k n : Nat} (hk : s.ip + k ≤ s.config.addrMax.val + 1) (h : s.config.addrMax.val + 1 < s.ip + k + n) :
    Pseudocode.raws s k n = .error .addressRange := by
  induction n generalizing k with
  | zero => omega
  | succ n ih =>
    rw [Pseudocode.raws, ← Nat.cast_add]
    by_cases hlast : s.ip + k ≤ s.config.addrMax.val
    · rw [check_of_legal hlast, bind_ok, ih (by omega) (by omega), bind_error]
    · rw [check_of_above (by omega), bind_error]

theorem NextInstr.fetchHead_eq (hi : NextInstr s i) : fetchHead s = .ok i.head := by
  obtain ⟨⟨_, hd⟩, hl⟩ := hi
  obtain ⟨h, hh, rfl, _⟩ := decode_ok_iff.1 hd
  rw [head_assemble hh]
  exact fetchHead_ok_iff.2 ⟨by omega, hh⟩

theorem NextInstr.raws_eq (hi : NextInstr s i) : Pseudocode.raws s 1 i.opcode.arity = .ok (i.operands.map (·.raw)) := by
  obtain ⟨⟨_, hd⟩, hl⟩ := hi
  obtain ⟨h, _, rfl, _⟩ := decode_ok_iff.1 hd
  rw [assemble_operands_length] at hl
  rw [assemble_opcode, raws_of_legal (by omega), assemble_raws]
  have h3 := arity_le_three h.op
  interval_cases h.op.arity <;> rfl

/-! ### The phases together -/

theorem eq_halt_of_opcode (h : i.opcode = .halt) : i = .halt := by
  cases i with
  | halt => rfl
  | _ => cases h

theorem number_eq_halt_iff (i : Instr) : i.opcode.number = 99 ↔ i = .halt := by
  cases i <;> simp [Instr.opcode, Opcode.number]

/-- With the instruction fetched, phases 4 and 6 are left of the pseudocode's preparation. -/
theorem NextInstr.prepare_eq (hi : NextInstr s i) : Pseudocode.prepare s = (operandPhases s i).map fun eas =>
    (i.opcode.number, valueOf s i.operands eas, eas.getD (Pseudocode.writeTarget i.opcode.number - 1) 0) := by
  have hdecode : Pseudocode.decode s = .ok (i.opcode.number, i.opcode.arity, i.operands.map (·.mode.digit)) := by
    rw [decode_eq_map_fetchHead, hi.fetchHead_eq, ← headDigits_head]
    rfl
  have hlen : (s.ip : Int) + i.opcode.arity + 1 = s.ip + i.length := by rw [Instr.length, operands_length]; omega
  simp only [Pseudocode.prepare, hdecode, bind_ok, hi.raws_eq, hlen, ne_eq, number_eq_halt_iff, operandPhases, lengthCheck]
  by_cases hhalt : i = .halt
  · subst hhalt
    rfl
  · rw [if_neg hhalt]
    by_cases hfit : wordMax < (s.ip : Int) + i.length
    · rw [if_pos ⟨hhalt, hfit⟩, if_pos hfit]
      rfl
    · rw [if_neg fun h => hfit h.2, if_neg hfit, bind_ok, addressesOf]
      cases Pseudocode.addresses s (i.operands.map (·.mode.digit)) (i.operands.map (·.raw)) <;> rfl

theorem NextInstr.pseudocode_step_eq (hi : NextInstr s i) : Pseudocode.step s = finish s i (operandPhases s i) := by
  rw [Pseudocode.step, hi.prepare_eq]
  cases operandPhases s i <;> rfl

theorem prepare_of_fetchHead_error {c : Cause} (hc : fetchHead s = .error c) : Pseudocode.prepare s = .error c := by
  rw [Pseudocode.prepare, decode_eq_map_fetchHead, hc]
  rfl

/-- Phases 4 and 5 raise the same fault, so their order cannot be observed (R132). -/
theorem prepare_of_operand_above {h : Head} (hh : fetchHead s = .ok h) (ha : s.config.addrMax.val < s.ip + h.op.arity) :
    Pseudocode.prepare s = .error .addressRange := by
  obtain ⟨hip, _⟩ := fetchHead_ok_iff.1 hh
  simp only [Pseudocode.prepare, decode_eq_map_fetchHead, hh, Except.map, bind_ok]
  split
  · rfl
  · rw [raws_of_above (by omega) (by omega), bind_error]

theorem pseudocode_step_of_prepare_error {c : Cause} (hc : Pseudocode.prepare s = .error c) :
    Pseudocode.step s = .next (s.takeFault c) := by
  rw [Pseudocode.step, hc]
  rfl

end Sys2Proof.Machine
end

section
/-! PROOFS. The statements of 40_step_and_operands.md, in order of tier. -/

namespace Sys2Proof.Machine

/-- Settles O13, by what the fetch meets: a decode fault, an operand word above `ADDR_MAX`, or a whole instruction, which is then
phases 4, 6 and 7. -/
theorem stepIsPseudocode : Obligations.StepIsPseudocode := by
  intro s he
  cases hh : fetchHead s with
  | error c =>
    have hfetch : fetchInstr s = .error c := by rw [fetchInstr, hh, bind_error]
    rw [step_of_fetchInstr_error he hfetch, pseudocode_step_of_prepare_error (prepare_of_fetchHead_error hh)]
  | ok h =>
    by_cases hl : s.ip + h.op.arity ≤ s.config.addrMax.val
    · obtain ⟨i, hi, _⟩ := nextInstr_of_decodeHead (fetchHead_ok_iff.1 hh).2 hl
      rw [step_of_nextInstr he hi, exec_eq_finish hi.wellFormed, hi.pseudocode_step_eq]
    · have ha : s.config.addrMax.val < s.ip + h.op.arity := by omega
      rw [step_of_fetchInstr_error he (fetchInstr_of_operand_above hh ha),
        pseudocode_step_of_prepare_error (prepare_of_operand_above hh ha)]

/-- Settles O10: an enabled core either takes a fetch fault or executes an instruction, and only a stalling Input has no next state. -/
theorem stepExactlyWhenRunning : Obligations.StepExactlyWhenRunning := by
  intro s
  constructor
  · rintro ⟨t, ht⟩
    obtain ⟨he, _⟩ := step_next_iff.1 ht
    refine ⟨he, fun ⟨dst, d, hi, hstall⟩ => ?_⟩
    rw [step_of_nextInstr he hi, exec_input_stall_iff.2 ⟨d, hstall⟩] at ht
    cases ht
  · rintro ⟨he, hns⟩
    cases hf : fetchInstr s with
    | error c => exact ⟨_, step_of_fetchInstr_error he hf⟩
    | ok i =>
      have hi := fetchInstr_ok_iff.1 hf
      rw [step_of_nextInstr he hi]
      refine (exec_next_or_stall i s).resolve_right ?_
      rintro ⟨⟨dst, rfl⟩, hx⟩
      obtain ⟨d, hstall⟩ := exec_input_stall_iff.1 hx
      exact hns ⟨dst, d, hi, hstall⟩

/-- Settles O11: a step is a stop of the gate, a fetch fault taken, or an instruction, which answers a next state or stalls. -/
theorem stepNeverRefuses : Obligations.StepNeverRefuses := by
  intro s r h
  by_cases he : Enabled s
  · cases hf : fetchInstr s with
    | error c => rw [step_of_fetchInstr_error he hf] at h; cases h
    | ok i =>
      rw [step_of_nextInstr he (fetchInstr_ok_iff.1 hf)] at h
      rcases exec_next_or_stall i s with ⟨t, hx⟩ | ⟨_, hx⟩ <;> (rw [hx] at h; cases h)
  · obtain ⟨f, hf⟩ := step_of_not_enabled he
    rw [hf] at h
    cases h

/-- Settles O12, instruction by instruction. -/
theorem onlyInputStalls : Obligations.OnlyInputStalls := exec_next_or_stall

/-- Settles O15: the length check is the first operand phase of every instruction but Halt. -/
theorem lengthCheckInExec : Obligations.LengthCheckInExec := by
  intro s i hi hne hfit
  refine exec_of_operandPhases_error hi ?_
  rw [operandPhases, if_neg hne, lengthCheck_error_iff.2 ⟨hfit, rfl⟩, bind_error]

/-- Settles O14: where the operand words lie above `ADDR_MAX` phase 5 raises the same fault, else the instruction does; Halt has
no operand word. -/
theorem lengthCheckFaults : Obligations.LengthCheckFaults := by
  intro s h he hip hd
  refine ⟨fun hne hlong => ?_, fun hhalt => ?_⟩
  · by_cases hl : s.ip + h.op.arity ≤ s.config.addrMax.val
    · obtain ⟨i, hi, rfl⟩ := nextInstr_of_decodeHead hd hl
      rw [step_of_nextInstr he hi]
      refine lengthCheckInExec s i hi.wellFormed (by rintro rfl; exact hne rfl) fun hfit => ?_
      rw [Fits, Instr.length, operands_length] at hfit
      have hop : i.head.op = i.opcode := rfl
      rw [hop] at hlong
      omega
    · exact step_of_fetchInstr_error he (fetchInstr_of_operand_above (fetchHead_ok_iff.2 ⟨hip, hd⟩) (by omega))
  · obtain ⟨i, hi, rfl⟩ := nextInstr_of_decodeHead hd (by rw [hhalt]; exact hip)
    obtain rfl := eq_halt_of_opcode hhalt
    exact step_of_nextInstr he hi

/-- Settles O17: the operands are resolved in order before any is used. -/
theorem addressFaultsAreEager : Obligations.AddressFaultsAreEager := by
  intro i s pre post o c hi hops hfit hpre ho
  have hne : i ≠ .halt := by
    rintro rfl
    simp [Instr.operands] at hops
  refine exec_of_operandPhases_error hi ?_
  rw [operandPhases, if_neg hne, (lengthCheck_ok_iff (u := ())).2 hfit, bind_ok, hops, addressesOf_error hpre ho]

/-- Settles O51: a terminal core has no step, and the moves of the environment but reset leave the core's own state; load does not
act on a started core. -/
theorem onlyResetLeavesTerminal : Obligations.OnlyResetLeavesTerminal := by
  intro m s t hended hs h hreset
  cases m with
  | core =>
    obtain ⟨⟨_, hrun⟩, _⟩ := step_next_iff.1 h
    simp [Ended, hrun] at hended
  | env e =>
    cases envStep_effect h with
    | reset => exact absurd rfl hreset
    | load image hs' hl => simp [hs] at hs'
    | _ => exact ⟨rfl, rfl, rfl, rfl, rfl, rfl⟩

/-- Settles O8, by the equation of the step on the instruction at `ip`. -/
theorem stepRunsDecoded : Obligations.StepRunsDecoded := fun _ _ he hi => step_of_nextInstr he hi

/-- Settles O9: the gate names the stop. -/
theorem noStepWhenStopped : Obligations.NoStepWhenStopped := by
  refine fun s => ⟨fun hs => step_of_stepGate ?_, fun hs hr => step_of_stepGate ?_, fun hs hr => step_of_stepGate ?_⟩
  · simp [stepGate, hs]
  · simp [stepGate, hs, hr]
  · simp [stepGate, hs, hr]

end Sys2Proof.Machine
end

section
/-! PROOFS. What the statements of 41_add_multiply.md need beside the laws of the integer unit: `wrap64` takes the
integers' sum and product to those of the Words (R164), and an overflow under `Fault` ends the instruction before it writes (R218). -/

namespace Sys2Proof.Machine

/-! ### The ring operations -/

theorem wrap64_toInt_add (x y : Word) : wrap64 (x.toInt + y.toInt) = x + y := by
  rw [wrap64, BitVec.ofInt_add, BitVec.ofInt_toInt, BitVec.ofInt_toInt]

theorem wrap64_toInt_mul (x y : Word) : wrap64 (x.toInt * y.toInt) = x * y := by
  rw [wrap64, BitVec.ofInt_mul, BitVec.ofInt_toInt, BitVec.ofInt_toInt]

theorem narrowsTo_wrap (x : Int) : NarrowsTo .wrap x (wrap64 x) := narrow_ok_iff.1 (narrow_wrap x)

/-! ### Overflow under `Fault` -/

section Overflow

variable {s : State} {a b dst : Operand} {x y : Word} {d : Nat}

/-- The arithmetic forms of format F3 take the fault once their operands are resolved (R160, R162). -/
theorem settle_overflowed {f : Word → Word → Int} (hp : s.config.overflowPolicy = .fault) (hf : Fits s 4) (ha : ReadsAs s a x)
    (hb : ReadsAs s b y) (hd : Targets s dst d) (hr : ¬ (wordMin ≤ f x y ∧ f x y ≤ wordMax)) :
    settle s (resolveRRW s a b dst >>= fun q =>
      narrow s.config.overflowPolicy (f q.1 q.2.1) >>= fun r => .ok ((s.store q.2.2 r).advance 4)) =
      .next (s.takeFault .arithmeticOverflow) := by
  rw [resolveRRW_ok_iff.2 ⟨hf, ha, hb, hd⟩, bind_ok, narrow_error_iff.2 ⟨rfl, hp, hr⟩, bind_error]
  rfl

theorem exec_add_overflow (hp : s.config.overflowPolicy = .fault) (hf : Fits s 4) (ha : ReadsAs s a x) (hb : ReadsAs s b y)
    (hd : Targets s dst d) (hr : ¬ (wordMin ≤ x.toInt + y.toInt ∧ x.toInt + y.toInt ≤ wordMax)) :
    exec (.add a b dst) s = .next (s.takeFault .arithmeticOverflow) := settle_overflowed (f := exactSum) hp hf ha hb hd hr

theorem exec_multiply_overflow (hp : s.config.overflowPolicy = .fault) (hf : Fits s 4) (ha : ReadsAs s a x) (hb : ReadsAs s b y)
    (hd : Targets s dst d) (hr : ¬ (wordMin ≤ x.toInt * y.toInt ∧ x.toInt * y.toInt ≤ wordMax)) :
    exec (.multiply a b dst) s = .next (s.takeFault .arithmeticOverflow) := settle_overflowed (f := exactProduct) hp hf ha hb hd hr

/-- AdjustRelativeBase takes the fault before it writes `rb` (R200). -/
theorem exec_adjustRelativeBase_overflow (hp : s.config.overflowPolicy = .fault) (hf : Fits s 2) (ha : ReadsAs s a x)
    (hr : ¬ (wordMin ≤ s.rb.toInt + x.toInt ∧ s.rb.toInt + x.toInt ≤ wordMax)) :
    exec (.adjustRelativeBase a) s = .next (s.takeFault .arithmeticOverflow) := by
  have hn : narrow s.config.overflowPolicy (exactSum s.rb x) = .error .arithmeticOverflow := narrow_error_iff.2 ⟨rfl, hp, hr⟩
  rw [exec, execAdjustRelativeBase, resolveR_ok_iff.2 ⟨hf, ha⟩, bind_ok, hn, bind_error]
  rfl

end Overflow

end Sys2Proof.Machine
end

section
/-! PROOFS. The statements of 41_add_multiply.md, all of tier 2. -/

namespace Sys2Proof.Machine

/-- Settles O19: Add stores what the exact sum narrows to, and a store with a fall-through changes nothing else. -/
theorem addStoresSum : Obligations.AddStoresSum :=
  fun s _ _ _ _ _ r d ha hb hd hf hr => ⟨_, exec_add_stores hf ha hb hd hr, stored_store_advance s d r 4⟩

/-- Settles O20, as for the sum. -/
theorem multiplyStoresProduct : Obligations.MultiplyStoresProduct :=
  fun s _ _ _ _ _ r d ha hb hd hf hr => ⟨_, exec_multiply_stores hf ha hb hd hr, stored_store_advance s d r 4⟩

/-- Settles O21: under `Wrap` both exact results narrow to their wraps, which are the bit-vector sum and product. -/
theorem wrapIsModular : Obligations.WrapIsModular := by
  intro s a b dst x y d hp ha hb hd hf
  have hwrap (r : Int) : NarrowsTo s.config.overflowPolicy r (wrap64 r) := hp ▸ narrowsTo_wrap r
  constructor
  · obtain ⟨t, hexec, hread, _⟩ := addStoresSum s a b dst x y _ d ha hb hd hf (hwrap _)
    exact ⟨t, hexec, hread.trans (wrap64_toInt_add x y)⟩
  · obtain ⟨t, hexec, hread, _⟩ := multiplyStoresProduct s a b dst x y _ d ha hb hd hf (hwrap _)
    exact ⟨t, hexec, hread.trans (wrap64_toInt_mul x y)⟩

/-- Settles O22, form by form: the operands resolve, and narrowing the exact result fails. -/
theorem overflowFaults : Obligations.OverflowFaults := by
  intro s a b dst x y d hp ha
  refine ⟨fun hb hd hf hr => ?_, fun hb hd hf hr => ?_, fun hf hr => ?_⟩
  · exact exec_add_overflow hp hf ha hb hd hr
  · exact exec_multiply_overflow hp hf ha hb hd hr
  · exact exec_adjustRelativeBase_overflow hp hf ha hr

end Sys2Proof.Machine
end

section
/-! PROOFS. What Input and Output answer once their operand is resolved (42_input_output.md R170, R172, R173): one equation per state
of the ports; and the two ways an Input can end in a next state (R171). -/

namespace Sys2Proof.Machine

variable {s t : State} {a dst : Operand} {d : Nat} {v : Word}

/-! ### Input -/

/-- Input on an empty closed port (R170). The two other states of the port are those of `exec_input_stores`, a Word waiting, and
`exec_input_stall_iff`, empty and open. -/
theorem exec_input_exhausted (hf : Fits s 2) (hd : Targets s dst d) (hq : s.inQueue = []) (hc : s.inClosed = true) :
    exec (.input dst) s = .next (s.takeFault .inputExhausted) := by
  simp [exec, execInput, resolveW_ok_iff.2 ⟨hf, hd⟩, hq, hc]

/-- An Input that answers a next state has stored the head of the queue, or has taken a fault and nothing else (R171). -/
theorem Effect.input_cases (h : Effect s (.input dst) t) :
    (∃ d v rest, s.inQueue = v :: rest ∧ Targets s dst d ∧ t = ((s.setInQueue rest).store d v).advance 2) ∨
      ∃ c, t = s.takeFault c := by
  cases h with
  | faulted c hc => exact .inr ⟨c, rfl⟩
  | input _ d v rest hq hf hd => exact .inl ⟨d, v, rest, hq, hd, rfl⟩
  | stored dst' d v hi hf hd => simp [Instr.isStoring] at hi
  | jumped c g w hi ht => simp at hi
  | fellThrough c g hi hf => simp at hi

/-! ### Output -/

theorem exec_output_open (hf : Fits s 2) (ha : ReadsAs s a v) (ho : ∀ p ∈ s.outPorts, p.closed = false) :
    exec (.output a) s =
      .next ((s.setOutPorts (s.outPorts.map fun p => { p with queue := p.queue ++ [v] })).advance 2) := by
  simp [exec, execOutput, resolveR_ok_iff.2 ⟨hf, ha⟩, broadcast_of_open ho]

theorem exec_output_closed {pre post : List OutPort} {p : OutPort} (hf : Fits s 2) (ha : ReadsAs s a v)
    (hs : s.outPorts = pre ++ p :: post) (ho : ∀ q ∈ pre, q.closed = false) (hp : p.closed = true) :
    exec (.output a) s = .next
      ((s.setOutPorts (pre.map (fun q => { q with queue := q.queue ++ [v] }) ++ p :: post)).takeFault .outputClosed) := by
  simp [exec, execOutput, resolveR_ok_iff.2 ⟨hf, ha⟩, hs, broadcast_of_closed ho hp]

end Sys2Proof.Machine
end

section
/-! PROOFS. The statements of 42_input_output.md, all of tier 2. -/

namespace Sys2Proof.Machine

/-- Settles O24: the closed flag is not looked at while a Word waits, and the store is made with the head already taken. -/
theorem inputTakesHead : Obligations.InputTakesHead :=
  fun _ _ d v _ hd hf hq => ⟨_, exec_input_stores hf hd hq, stored_store_advance _ d v 2⟩

/-- Settles O25, by the closed flag. -/
theorem inputOnEmptyPort : Obligations.InputOnEmptyPort :=
  fun _ _ d hd hf hq => ⟨fun hc => exec_input_exhausted hf hd hq hc, fun hc => exec_input_stall_iff.2 ⟨d, hf, hd, hq, hc⟩⟩

/-- Settles O26: a fan-out that meets no closed port reaches every port; with no port the map is empty. -/
theorem outputReachesEveryPort : Obligations.OutputReachesEveryPort := fun _ _ _ ha hf ho => exec_output_open hf ha ho

/-- Settles O27: the fan-out stops at the first closed port. -/
theorem outputStopsAtClosedPort : Obligations.OutputStopsAtClosedPort :=
  fun _ _ _ _ _ _ ha hf hs ho hp => exec_output_closed hf ha hs ho hp

/-- Settles O36: the frame of every instruction covers the other state elements; memory and the queue are as the way Input ended
leaves them. -/
theorem inputFrame : Obligations.InputFrame := by
  intro dst s t h
  have hx := exec_effect h
  obtain ⟨hconfig, hstarted, hinClosed, hinShut, houtShut⟩ := hx.keeps_config_and_flags
  have hrb : t.rb = s.rb := hx.rb_eq_or_adjust.resolve_right (by simp)
  have hports : t.outPorts = s.outPorts := hx.outPorts_eq_or_output.resolve_right (by simp)
  refine ⟨hconfig, hrb, hinClosed, hports, hstarted, hinShut, houtShut, ?_⟩
  rcases hx.input_cases with ⟨d, v, rest, hq, hd, rfl⟩ | ⟨c, rfl⟩
  · refine ⟨fun x hne => ?_, .inl ⟨rfl, rfl, v, hq⟩⟩
    have hxd : x ≠ d := fun hxd => hne (targetAddress_ok_iff.2 (hxd ▸ hd))
    simp [hxd]
  · exact ⟨fun _ _ => rfl, .inr ⟨rfl, fun _ => rfl, rfl, rfl, rfl⟩⟩

/-- Settles O40: a fetch fault leaves the ports, and an effect that changes a queue is of the instruction at `ip` that may. -/
theorem portsOnlyByInputAndOutput : Obligations.PortsOnlyByInputAndOutput := by
  intro s t h
  obtain ⟨hinClosed, houtClosed, _⟩ := step_closed_flags h
  obtain ⟨_, ⟨c, _, rfl⟩ | ⟨i, hi, hx⟩⟩ := step_effect h
  · exact ⟨fun hne => absurd rfl hne, fun hne => absurd rfl hne, hinClosed, houtClosed⟩
  · refine ⟨fun hne => ?_, fun hne => ?_, hinClosed, houtClosed⟩
    · obtain ⟨dst, rfl⟩ := hx.inQueue_eq_or_input.resolve_left hne
      exact ⟨dst, hi⟩
    · obtain ⟨a, rfl⟩ := hx.outPorts_eq_or_output.resolve_left hne
      exact ⟨a, hi⟩

end Sys2Proof.Machine
end

section
/-! PROOFS. What the two jumps answer once their operands are resolved (43_jumps.md R180, R182, R183): one equation for the format, in
whatever decides whether the jump is taken, and its two instances; and what an effect that leaves the core Running does to `ip`
(R24, R184). -/

namespace Sys2Proof.Machine

variable {s t : State} {i : Instr} {cond target dst : Operand} {c w : Word}

/-! ### The two jumps -/

/-- A jump that is taken looks at its target's sign; one that is not falls through, whatever its target (R183). -/
theorem settle_jump {f : Word → Prop} [DecidablePred f] (hf : Fits s 3) (hc : ReadsAs s cond c) (hw : ReadsAs s target w) :
    settle s (resolveRR s cond target >>= fun q => if f q.1 then jumpTo s q.2 else .ok (s.advance 3)) =
      if f c then if w.toInt < 0 then .next (Faulted s .negativeAddress) else .next { s with ip := w.toInt.toNat }
      else .next { s with ip := s.ip + 3 } := by
  rw [resolveRR_ok_iff.2 ⟨hf, hc, hw⟩, bind_ok, apply_ite (settle s), settle_jumpTo]
  rfl

theorem exec_jumpIfTrue (hf : Fits s 3) (hc : ReadsAs s cond c) (hw : ReadsAs s target w) :
    exec (.jumpIfTrue cond target) s =
      if c.toInt ≠ 0 then if w.toInt < 0 then .next (Faulted s .negativeAddress) else .next { s with ip := w.toInt.toNat }
      else .next { s with ip := s.ip + 3 } := by
  simp only [ne_eq, toInt_eq_zero_iff]
  exact settle_jump (f := fun v => v ≠ 0) hf hc hw

theorem exec_jumpIfFalse (hf : Fits s 3) (hc : ReadsAs s cond c) (hw : ReadsAs s target w) :
    exec (.jumpIfFalse cond target) s =
      if c.toInt = 0 then if w.toInt < 0 then .next (Faulted s .negativeAddress) else .next { s with ip := w.toInt.toNat }
      else .next { s with ip := s.ip + 3 } := by
  simp only [toInt_eq_zero_iff]
  exact settle_jump (f := fun v => v = 0) hf hc hw

/-! ### The next sequential address -/

theorem Instr.isStoring.length_eq (h : Instr.isStoring i dst) : i.length = 4 := by
  obtain ⟨a, b, rfl | rfl | rfl | rfl⟩ := h <;> rfl

/-- An effect that leaves the core Running falls through by the instruction's length, or is that of a jump (R24, R184). -/
theorem Effect.ip_eq_or_jump (h : Effect s i t) (hrun : t.runState = .running) :
    t.ip = s.ip + i.length ∨ ∃ c g, i = .jumpIfTrue c g ∨ i = .jumpIfFalse c g := by
  cases h with
  | faulted c hc => cases hrun
  | outputClosed a v pre post p hf ha hs ho hp => cases hrun
  | halted => cases hrun
  | stored dst d v hi hf hd => exact .inl (by rw [hi.length_eq]; rfl)
  | jumped c g w hi hw => exact .inr ⟨c, g, hi⟩
  | fellThrough c g hi hf => exact .inr ⟨c, g, hi⟩
  | _ => exact .inl rfl

end Sys2Proof.Machine
end

section
/-! PROOFS. The statements of 43_jumps.md, all of tier 2. -/

namespace Sys2Proof.Machine

/-- Settles O28: the three clauses are the three branches of the equation of JumpIfTrue. -/
theorem jumpIfTrueGoes : Obligations.JumpIfTrueGoes := by
  intro s cond target c w hc hw hf
  rw [exec_jumpIfTrue hf hc hw]
  refine ⟨fun hne hpos => ?_, fun hzero => ?_, fun hne hneg => ?_⟩
  · rw [if_pos hne, if_neg (by omega)]
  · rw [if_neg (by omega)]
  · rw [if_pos hne, if_pos hneg]

/-- Settles O29: the three clauses are the three branches of the equation of JumpIfFalse. -/
theorem jumpIfFalseGoes : Obligations.JumpIfFalseGoes := by
  intro s cond target c w hc hw hf
  rw [exec_jumpIfFalse hf hc hw]
  refine ⟨fun hzero hpos => ?_, fun hne => ?_, fun hzero hneg => ?_⟩
  · rw [if_pos hzero, if_neg (by omega)]
  · rw [if_neg hne]
  · rw [if_pos hzero, if_pos hneg]

/-- Settles O39: a fault of the fetch does not leave the core Running, so the step is an effect of the instruction at `ip`. -/
theorem onlyJumpsRedirect : Obligations.OnlyJumpsRedirect := by
  intro s t h hrun
  obtain ⟨_, ⟨c, _, rfl⟩ | ⟨i, hi, hx⟩⟩ := step_effect h
  · cases hrun
  · exact ⟨i, hi, hx.ip_eq_or_jump hrun⟩

end Sys2Proof.Machine
end

section
/-! PROOFS. The statements of 44_compare.md, both of tier 2. -/

namespace Sys2Proof.Machine

/-- Settles O30: LessThan stores the signed comparison of its operands in their order, and a store with a fall-through changes
nothing else. -/
theorem lessThanStoresComparison : Obligations.LessThanStoresComparison := fun _ _ _ _ _ _ _ ha hb hd hf =>
  ⟨_, exec_lessThan_stores hf ha hb hd, stored_store_advance ..⟩

/-- Settles O31, as for LessThan: Words are equal where their signed values are. -/
theorem equalsStoresComparison : Obligations.EqualsStoresComparison := fun _ _ _ _ _ _ _ ha hb hd hf =>
  ⟨_, exec_equals_stores hf ha hb hd, stored_store_advance ..⟩

end Sys2Proof.Machine
end

section
/-! PROOFS. What AdjustRelativeBase answers once its operand is resolved (45_adjust_relative_base.md R200, R201), and the statement
of that file, of tier 2. Its overflow is `exec_adjustRelativeBase_overflow`. -/

namespace Sys2Proof.Machine

/-- The operand is read in the state before the instruction, so with the old `rb` (R201). -/
theorem exec_adjustRelativeBase_adds {s : State} {a : Operand} {v r : Word} (hf : Fits s 2) (ha : ReadsAs s a v)
    (hr : NarrowsTo s.config.overflowPolicy (s.rb.toInt + v.toInt) r) :
    exec (.adjustRelativeBase a) s = .next ((s.setRb r).advance 2) := by
  have hn : narrow s.config.overflowPolicy (exactSum s.rb v) = .ok r := narrow_ok_iff.2 hr
  rw [exec, execAdjustRelativeBase, resolveR_ok_iff.2 ⟨hf, ha⟩, bind_ok, hn, bind_ok]
  rfl

/-- Settles O32: the state with `rb` and `ip` set is the one that AdjustRelativeBase answers. -/
theorem adjustRelativeBaseAdds : Obligations.AdjustRelativeBaseAdds := fun _ _ _ _ ha hf hr =>
  exec_adjustRelativeBase_adds hf ha hr

end Sys2Proof.Machine
end

section
/-! PROOFS. Halt (46_halt.md R205): every Word whose opcode number is 99 decodes to it, and the statement of that file, of tier 1. -/

namespace Sys2Proof.Machine

/-- Halt has no operand, so no mode digit is examined (R92, R96). -/
theorem decodeHead_of_number_halt {w : Word} (hw : 0 ≤ w.toInt) (hn : w.toNat % 100 = 99) :
    decodeHead w = .ok ⟨.halt, .position, .position, .position⟩ :=
  decodeHead_of_opcode hw (op := .halt) (by rw [hn]; rfl)

/-- The whole answer of Halt: it resolves no operand and checks no length. -/
theorem exec_halt (s : State) : exec .halt s = .next s.setHalted := rfl

/-- Settles O33: the instruction answers in every state, and the step is the Halt clause of the length check. -/
theorem haltHalts : Obligations.HaltHalts := fun s => ⟨exec_halt s, fun he hip hw hn =>
  (lengthCheckFaults s _ he hip (decodeHead_of_number_halt hw hn)).2 rfl⟩

end Sys2Proof.Machine
end

section
/-! PROOFS. How a step can come to a fault (60_exceptions.md R218, R221, R222): one inversion of `step` for a next state in Faulted, with
the cause and what it leaves. -/

namespace Sys2Proof.Machine

variable {s t : State} {i : Instr}

/-- The fault of a step: taken on the state as it was, with ArithmeticOverflow under `Fault` only (R218), or OutputClosed after
the ports before the first closed one took a Word, of which there is none where `N_OUT` is 0 or 1 (R222). -/
inductive FaultTaken (s : State) : State → Prop where
  | precise (c : Cause) (hc : c = .arithmeticOverflow → s.config.overflowPolicy = .fault) : FaultTaken s (s.takeFault c)
  | outputClosed (ps : List OutPort) (hps : ps ≠ s.outPorts → 2 ≤ s.nOut) :
      FaultTaken s ((s.setOutPorts ps).takeFault .outputClosed)

/-- An effect that ends a Running core in Faulted is one of the two that take a fault. -/
theorem Effect.faultTaken (h : Effect s i t) (hs : s.runState = .running) (ht : t.runState = .faulted) : FaultTaken s t := by
  cases h with
  | faulted c hc =>
    refine .precise c fun hoverflow => ?_
    subst hoverflow
    simpa [isOperandCause] using hc
  | outputClosed a v pre post p hf ha hports ho hp =>
    refine .outputClosed _ fun hne => ?_
    cases pre with
    | nil => exact absurd hports.symm hne
    | cons q pre => simp only [State.nOut, hports, List.length_append, List.length_cons]; omega
  | halted => cases ht
  | _ => exact absurd (hs.symm.trans ht) (by decide)

/-- The inversion of `step` for a next state in Faulted: the fetch raises no ArithmeticOverflow, and the rest is the instruction's. -/
theorem step_faultTaken (h : step s = .next t) (ht : t.runState = .faulted) : FaultTaken s t := by
  obtain ⟨⟨_, hs⟩, ⟨c, hc, rfl⟩ | ⟨i, _, hx⟩⟩ := step_effect h
  · exact .precise c (by rintro rfl; simpa using fetchInstr_error_cause hc)
  · exact hx.faultTaken hs ht

end Sys2Proof.Machine
end

section
/-! PROOFS. The events of a system of cores (60_exceptions.md R229; 20_memory.md R68): what an event at one core answers and leaves, and
that forwarding is a take at one core followed by an append at another, or at the same one. -/

namespace Sys2Proof.Machine

variable {y z : System} {i j k : Nat} {f : State → Host.Outcome State Fault Refusal}

/-- An event at core `i` succeeds exactly when that core's event does, and puts its answer in place. -/
theorem System.at_next_iff : y.at i f = .next z ↔
    ∃ s t, y.cores[i]? = some s ∧ f s = .next t ∧ z = { y with cores := y.cores.set i t } := by
  unfold System.at
  cases hs : y.cores[i]? with
  | none => simp
  | some s => cases hf : f s <;> simp [hf, eq_comm]

/-- An event at core `i` leaves every other core, the number of cores and the connections (R68). -/
theorem System.at_frame (h : y.at i f = .next z) :
    (∀ k, i ≠ k → z.cores[k]? = y.cores[k]?) ∧ z.cores.length = y.cores.length ∧ z.wires = y.wires := by
  obtain ⟨s, t, _, _, rfl⟩ := System.at_next_iff.1 h
  exact ⟨fun k hk => List.getElem?_set_ne hk, List.length_set, rfl⟩

/-- Where the event of core `i` answers, so does the event of the system, with that answer as core `i`. -/
theorem System.at_answers {s t : State} (hs : y.cores[i]? = some s) (hf : f s = .next t) :
    ∃ z, y.at i f = .next z ∧ z.cores[i]? = some t := by
  obtain ⟨hi, _⟩ := List.getElem?_eq_some_iff.1 hs
  exact ⟨_, System.at_next_iff.2 ⟨s, t, hs, hf, rfl⟩, List.getElem?_set_self hi⟩

/-- What an event leaves unchanged at the core where it happens, it leaves unchanged at every core. -/
theorem System.at_keeps {α : Type} {g : State → α} (hg : ∀ s t, f s = .next t → g t = g s) (h : y.at i f = .next z) {c : State}
    (hc : y.cores[k]? = some c) : ∃ d, z.cores[k]? = some d ∧ g d = g c := by
  by_cases hik : i = k
  · subst hik
    obtain ⟨s, t, hs, hf, _⟩ := System.at_next_iff.1 h
    obtain rfl : c = s := Option.some.inj (hc.symm.trans hs)
    obtain ⟨z', h', ht⟩ := System.at_answers hs hf
    obtain rfl : z = z' := Host.Outcome.next.inj (h.symm.trans h')
    exact ⟨t, ht, hg c t hf⟩
  · exact ⟨c, ((System.at_frame h).1 k hik).trans hc, rfl⟩

/-- Forwarding along a connection is a take at its source, then an append of the Word at its end (R229). -/
theorem systemStep_forward_next_iff : systemStep (.forward k) y = .next z ↔
    ∃ w v u, y.wires[k]? = some w ∧ y.outHead w.fromCore w.fromPort = some v ∧
      y.at w.fromCore (envStep (.takeOut w.fromPort)) = .next u ∧ u.at w.toCore (envStep (.appendIn v)) = .next z := by
  simp only [systemStep]
  cases y.wires[k]? with
  | none => simp
  | some w =>
    cases hv : y.outHead w.fromCore w.fromPort with
    | none => simp [hv]
    | some v => cases hu : y.at w.fromCore (envStep (.takeOut w.fromPort)) <;> simp [hv, hu]

theorem System.outHead_of_queue {s : State} {p : OutPort} {v : Word} {rest : List Word} (hs : y.cores[i]? = some s)
    (hp : s.outPorts[j]? = some p) (hq : p.queue = v :: rest) : y.outHead i j = some v := by
  simp [System.outHead, hs, hp, hq]

/-- The environment appends to an open inbound port, at its tail (R33). -/
theorem appendIn_next_iff {s t : State} {v : Word} :
    envStep (.appendIn v) s = .next t ↔ s.inClosed = false ∧ t = s.setInQueue (s.inQueue ++ [v]) := by
  cases hc : s.inClosed <;> simp [envStep, hc, eq_comm]

/-- A take leaves the inbound port (R34). -/
theorem takeOut_keeps_inbound {s t : State} (h : envStep (.takeOut j) s = .next t) :
    (t.inQueue, t.inClosed) = (s.inQueue, s.inClosed) := by
  obtain ⟨_, _, _, _, _, rfl⟩ := takeOut_next_iff.1 h
  rfl

/-- An append leaves the outbound ports (R33). -/
theorem appendIn_keeps_outPorts {s t : State} {v : Word} (h : envStep (.appendIn v) s = .next t) : t.outPorts = s.outPorts := by
  obtain ⟨_, rfl⟩ := appendIn_next_iff.1 h
  rfl

end Sys2Proof.Machine
end

section
/-! PROOFS. The statements of 60_exceptions.md, all of tier 2. -/

namespace Sys2Proof.Machine

/-- Settles O18, by the two ways a step comes to a fault. -/
theorem faultsArePrecise : Obligations.FaultsArePrecise := by
  intro s t h ht
  cases step_faultTaken h ht with
  | precise c hc => exact ⟨c, rfl, rfl, fun hne => absurd rfl hne⟩
  | outputClosed ps hps => exact ⟨.outputClosed, rfl, rfl, fun hne => ⟨rfl, hps hne⟩⟩

/-- Settles O23: ArithmeticOverflow needs the policy `Fault`. -/
theorem wrapNeverOverflows : Obligations.WrapNeverOverflows := by
  intro s t hpolicy h ht
  cases step_faultTaken h ht with
  | precise c hc =>
    intro hcause
    have hfault := hc (Option.some.inj hcause)
    rw [hpolicy] at hfault
    cases hfault
  | outputClosed ps hps => simp

/-- Settles O57: every event is made of events at single cores, and each of those leaves the other cores. -/
theorem coresShareNothing : Obligations.CoresShareNothing := by
  intro m y z k h hcore henv hforward
  cases m with
  | core i =>
    obtain ⟨hcores, hframe⟩ := System.at_frame (f := step) h
    exact ⟨hcores k (hcore i rfl), hframe⟩
  | env i e =>
    obtain ⟨hcores, hframe⟩ := System.at_frame (f := envStep e) h
    exact ⟨hcores k (henv i e rfl), hframe⟩
  | forward n =>
    obtain ⟨w, v, u, hw, _, htake, happend⟩ := systemStep_forward_next_iff.1 h
    obtain ⟨hfrom, hto⟩ := hforward n w rfl hw
    obtain ⟨hcores₁, hlen₁, hwires₁⟩ := System.at_frame htake
    obtain ⟨hcores₂, hlen₂, hwires₂⟩ := System.at_frame happend
    exact ⟨(hcores₂ k hto).trans (hcores₁ k hfrom), hlen₂.trans hlen₁, hwires₂.trans hwires₁⟩

/-- Settles O58: the take leaves every inbound port and the append every outbound port, so each finds what it needs, also where a
core is connected to itself. -/
theorem forwardIsFifo : Obligations.ForwardIsFifo := by
  intro y k w s d p v rest hw hs hd hp hq hopen
  obtain ⟨u, htake, ha⟩ := System.at_answers hs (takeOut_next_iff.2 ⟨p, v, rest, hp, hq, rfl⟩)
  obtain ⟨e, he, hinbound⟩ := System.at_keeps (g := fun c => (c.inQueue, c.inClosed)) (fun _ _ => takeOut_keeps_inbound) htake hd
  obtain ⟨hqueue, hclosed⟩ : e.inQueue = d.inQueue ∧ e.inClosed = d.inClosed := Prod.mk.inj hinbound
  obtain ⟨z, happend, hb⟩ := System.at_answers he (appendIn_next_iff.2 ⟨hclosed.trans hopen, rfl⟩)
  obtain ⟨a, ha', hports⟩ := System.at_keeps (fun _ _ => appendIn_keeps_outPorts) happend ha
  refine ⟨z, systemStep_forward_next_iff.2 ⟨w, v, u, hw, System.outHead_of_queue hs hp hq, htake, happend⟩,
    ⟨a, ha', hports⟩, _, hb, ?_⟩
  rw [State.setInQueue_inQueue, hqueue]

end Sys2Proof.Machine
end

section
/-! PROOFS. The moves before start (70_reset_and_hazards.md R261, R262), and deliveries on the inbound port (10_state.md R33, R35;
70_reset_and_hazards.md R270, R274): only Input looks at the inbound queue, and only at its head, so a step commutes with Words that
come to the tail, and a schedule of steps and deliveries comes to the same as all its deliveries first. -/

namespace Sys2Proof.Machine

variable {s t : State} {ws : List Word}

/-! ### The moves before start -/

/-- An image that fits is loaded (R261). -/
theorem load_next {image : List Word} (hs : s.started = false) (hl : image.length ≤ s.config.memCapacity) :
    envStep (.load image) s = .next (s.load image) := by
  simp [envStep, hs, Nat.not_lt.2 hl]

/-- With no Word on a port the endpoints are fixed (R262, R264). -/
theorem fixEndpoints_next (n : Nat) (b : Bool) (hs : s.started = false) (hin : s.inQueue = [])
    (hout : ∀ p ∈ s.outPorts, p.queue = []) : envStep (.fixEndpoints n b) s = .next (s.fixEndpoints n b) := by
  simp [envStep, hs, portsEmpty_iff.2 ⟨hin, hout⟩]

/-! ### The tail of the inbound queue -/

/-- Words at the tail of the inbound queue, as appends one by one leave it (`runMoves_appendIn_append`). -/
def State.deliver (s : State) (ws : List Word) : State := s.setInQueue (s.inQueue ++ ws)

@[simp] theorem State.deliver_inQueue (s : State) (ws : List Word) : (s.deliver ws).inQueue = s.inQueue ++ ws := rfl

@[simp] theorem State.deliver_inClosed (s : State) (ws : List Word) : (s.deliver ws).inClosed = s.inClosed := rfl

@[simp] theorem State.deliver_nil (s : State) : s.deliver [] = s := by
  simp [State.deliver, State.setInQueue]

theorem State.deliver_append (s : State) (vs ws : List Word) : s.deliver (vs ++ ws) = (s.deliver vs).deliver ws := by
  simp [State.deliver, State.setInQueue]

/-- Appends one by one deliver their Words; a closed port must have none to take (R33). -/
theorem runMoves_appendIn_append (ms : List Move) (hws : s.inClosed = true → ws = []) :
    runMoves (ws.map (fun v => .env (.appendIn v)) ++ ms) s = runMoves ms (s.deliver ws) := by
  induction ws generalizing s with
  | nil => simp
  | cons v ws ih =>
    have hopen : s.inClosed = false := by simpa using hws
    have happend : move (.env (.appendIn v)) s = .next (s.deliver [v]) := appendIn_next_iff.2 ⟨hopen, rfl⟩
    simp only [List.map_cons, List.cons_append, runMoves, happend]
    rw [ih (by simp [hopen]), ← State.deliver_append, List.singleton_append]

/-! ### The step -/

theorem nextInstr_deliver {i : Instr} : NextInstr (s.deliver ws) i ↔ NextInstr s i := .rfl

theorem fetchInstr_deliver : fetchInstr (s.deliver ws) = fetchInstr s := rfl

theorem resolveR_deliver {a : Operand} : resolveR (s.deliver ws) a = resolveR s a := rfl

theorem resolveW_deliver {dst : Operand} : resolveW (s.deliver ws) dst = resolveW s dst := rfl

/-- A meaning that computes alike on a longer inbound queue leaves its tail and otherwise answers the same. -/
theorem settle_deliver {r q : Except Cause State} (hq : q = r.map (·.deliver ws)) (h : settle s r = .next t) :
    settle (s.deliver ws) q = .next (t.deliver ws) := by
  subst hq
  cases r <;> cases h <;> rfl

theorem jump_deliver (s : State) (ws : List Word) (w : Word) (c : Prop) [Decidable c] :
    (if c then jumpTo (s.deliver ws) w else .ok ((s.deliver ws).advance 3)) =
      (if c then jumpTo s w else .ok (s.advance 3)).map (·.deliver ws) := by
  unfold jumpTo
  split
  · split <;> rfl
  · rfl

/-- Input takes the head of an open port's queue, or stalls. -/
theorem execInput_deliver {dst : Operand} (hopen : s.inClosed = false) (h : execInput dst s = .next t) :
    execInput dst (s.deliver ws) = .next (t.deliver ws) := by
  unfold execInput at h ⊢
  rw [resolveW_deliver]
  cases hd : resolveW s dst with
  | error c =>
    rw [hd] at h
    cases h
    rfl
  | ok d =>
    cases hq : s.inQueue with
    | nil => simp [hd, hq, hopen] at h
    | cons v rest =>
      simp only [hd, hq] at h
      cases h
      simp only [State.deliver_inQueue, hq, List.cons_append]
      rfl

theorem execOutput_deliver {a : Operand} (h : execOutput a s = .next t) :
    execOutput a (s.deliver ws) = .next (t.deliver ws) := by
  unfold execOutput at h ⊢
  rw [resolveR_deliver]
  cases hv : resolveR s a with
  | error c =>
    rw [hv] at h
    cases h
    rfl
  | ok v =>
    have hports : (s.deliver ws).outPorts = s.outPorts := rfl
    simp only [hv, hports] at h ⊢
    cases hall : (broadcast v s.outPorts).2 with
    | true =>
      rw [hall] at h
      cases h
      rfl
    | false =>
      rw [hall] at h
      cases h
      rfl

/-- No instruction but Input reads or writes the inbound queue. -/
theorem exec_deliver {i : Instr} (hopen : s.inClosed = false) (h : exec i s = .next t) :
    exec i (s.deliver ws) = .next (t.deliver ws) := by
  cases i with
  | add a b dst => exact settle_deliver (bind_eq_map_bind fun _ => bind_eq_map_bind fun _ => rfl) h
  | multiply a b dst => exact settle_deliver (bind_eq_map_bind fun _ => bind_eq_map_bind fun _ => rfl) h
  | input dst => exact execInput_deliver hopen h
  | output a => exact execOutput_deliver h
  | jumpIfTrue c g => exact settle_deliver (bind_eq_map_bind fun _ => jump_deliver s ws _ _) h
  | jumpIfFalse c g => exact settle_deliver (bind_eq_map_bind fun _ => jump_deliver s ws _ _) h
  | lessThan a b dst => exact settle_deliver (bind_eq_map_bind fun _ => rfl) h
  | equals a b dst => exact settle_deliver (bind_eq_map_bind fun _ => rfl) h
  | adjustRelativeBase a => exact settle_deliver (bind_eq_map_bind fun _ => bind_eq_map_bind fun _ => rfl) h
  | halt => cases h; rfl

/-- A step that is enabled before a delivery answers the same after it (R35). -/
theorem step_deliver (hws : s.inClosed = true → ws = []) (h : step s = .next t) :
    step (s.deliver ws) = .next (t.deliver ws) := by
  cases hc : s.inClosed with
  | true => simpa [hws hc] using h
  | false =>
    obtain ⟨he, ⟨c, hf, rfl⟩ | ⟨i, hi, hexec⟩⟩ := step_next_iff.1 h
    · exact step_next_iff.2 ⟨he, .inl ⟨c, fetchInstr_deliver.trans hf, rfl⟩⟩
    · exact step_next_iff.2 ⟨he, .inr ⟨i, nextInstr_deliver.2 hi, exec_deliver hc hexec⟩⟩

/-! ### Schedules of steps and deliveries -/

theorem step_inClosed (h : step s = .next t) : t.inClosed = s.inClosed := by
  obtain ⟨hclosed, _⟩ := step_closed_flags h
  exact hclosed

/-- A run of steps alone commutes with a delivery. -/
theorem runMoves_core_deliver {k : Nat} (hws : s.inClosed = true → ws = [])
    (h : runMoves (List.replicate k .core) s = .next t) :
    runMoves (List.replicate k .core) (s.deliver ws) = .next (t.deliver ws) := by
  induction k generalizing s with
  | zero => cases h; rfl
  | succ k ih =>
    obtain ⟨u, hstep, hrun⟩ := runMoves_cons.1 h
    exact runMoves_cons.2 ⟨_, step_deliver hws hstep, ih (by rwa [step_inClosed hstep]) hrun⟩

theorem Move.isDelivery_iff {m : Move} : m.isDelivery = true ↔ m = .core ∨ ∃ v, m = .env (.appendIn v) := by
  cases m with
  | core => simp [Move.isDelivery]
  | env e => cases e <;> simp [Move.isDelivery]

/-- A schedule of steps and deliveries comes to what its steps come to after all its deliveries; a closed port gets none. -/
theorem runMoves_deliveries_first {ms : List Move} (hms : ∀ m ∈ ms, m.isDelivery = true) (h : runMoves ms s = .next t) :
    (s.inClosed = true → delivered ms = []) ∧
      runMoves (List.replicate (coreSteps ms) .core) (s.deliver (delivered ms)) = .next t := by
  induction ms generalizing s with
  | nil => exact ⟨fun _ => rfl, by simpa [delivered, coreSteps] using h⟩
  | cons m ms ih =>
    obtain ⟨u, hm, hrun⟩ := runMoves_cons.1 h
    obtain ⟨hclosed, hsteps⟩ := ih (fun n hn => hms n (by simp [hn])) hrun
    rcases Move.isDelivery_iff.1 (hms m (by simp)) with rfl | ⟨v, rfl⟩
    · rw [step_inClosed hm] at hclosed
      have hcount : coreSteps (.core :: ms) = coreSteps ms + 1 := by simp [coreSteps]
      rw [hcount]
      exact ⟨hclosed, runMoves_cons.2 ⟨_, step_deliver hclosed hm, hsteps⟩⟩
    · obtain ⟨hopen, rfl⟩ := appendIn_next_iff.1 hm
      have hcount : coreSteps (.env (.appendIn v) :: ms) = coreSteps ms := by simp [coreSteps]
      have hdeliver : s.deliver (v :: delivered ms) = (s.deliver [v]).deliver (delivered ms) := s.deliver_append [v] _
      rw [hcount]
      exact ⟨by simp [hopen], (congrArg _ hdeliver).trans hsteps⟩

end Sys2Proof.Machine
end

section
/-! PROOFS. The statements of 70_reset_and_hazards.md on reset, start and the timing of deliveries, in order of tier. -/

namespace Sys2Proof.Machine

/-- Settles O50: the load and the start are allowed and touch nothing else, and the appends between them deliver the seeds. -/
theorem startState : Obligations.StartState := by
  intro c n image seeds hlen hseeds
  refine ⟨(((State.resetWith c n).load image).deliver seeds).start, ?_, ⟨rfl, rfl⟩, rfl, rfl, rfl, fun x => ?_, rfl, rfl, rfl, rfl⟩
  · have hload : envStep (.load image) (State.resetWith c n) = .next ((State.resetWith c n).load image) := load_next rfl hlen
    have hport : ((State.resetWith c n).load image).inClosed = true → seeds = [] := by
      simpa [State.resetWith] using hseeds
    exact runMoves_cons.2 ⟨_, hload, runMoves_appendIn_append [.env .start] hport⟩
  · have hread := Memory.read_ofImageAt 0 image x
    rwa [Nat.zero_add] at hread

/-- Settles O56: both schedules come to their steps after all their deliveries, and the steps commute with what is delivered more. -/
theorem deliveryTimingIrrelevant : Obligations.DeliveryTimingIrrelevant := by
  intro ms ns s t u extra hms hns ht hu hsteps hdelivered
  obtain ⟨_, hfirst⟩ := runMoves_deliveries_first hms ht
  obtain ⟨hclosed, hsecond⟩ := runMoves_deliveries_first hns hu
  rw [hdelivered] at hclosed hsecond
  have hextra : s.inClosed = true → extra = [] := fun hc => (List.append_eq_nil_iff.1 (hclosed hc)).2
  have hmore := runMoves_core_deliver (s := s.deliver (delivered ms)) hextra hfirst
  rw [← State.deliver_append, hsteps, hsecond] at hmore
  exact Host.Outcome.next.inj hmore

/-- Settles O59: with no Word on a port the move is allowed, and the new ports are those of the record of closes. -/
theorem fixEndpointsSetsPorts : Obligations.FixEndpointsSetsPorts := by
  intro s n b hs hin hout
  refine ⟨_, fixEndpoints_next n b hs hin hout, emptyPorts_length n s.outShut, rfl, rfl, by simp, fun j hj => ?_, rfl⟩
  exact ⟨_, emptyPorts_getElem?.2 ⟨hj, rfl⟩, rfl, by simp⟩

/-- Settles O49: every element is written by the move, and the gate is shut for want of a start. -/
theorem resetValues : Obligations.ResetValues := fun s =>
  ⟨s.envReset, rfl, fun _ => rfl, rfl, rfl, rfl, rfl, rfl, rfl, rfl, rfl, rfl, rfl, rfl, step_of_stepGate rfl⟩

/-- Settles O53: on a started core the first guard of load and of fixing the endpoints holds and start writes what is there; a closed
port's guard refuses the append. -/
theorem forbiddenMovesRefused : Obligations.ForbiddenMovesRefused := by
  refine fun s => ⟨fun hs image n b => ⟨?_, ?_, ?_⟩, fun hc v => ?_⟩
  · simp [envStep, hs]
  · simp [envStep, hs]
  · have hsame : s.start = s := by simp [State.start, ← hs]
    simp [envStep, hsame]
  · simp [envStep, hc]

end Sys2Proof.Machine
end
